-- ==== Sys2Proof/Word.lean ====
section
/-!
DEFINITION. The words the spec computes with (R13, R14): bytes and byte sequences. Every other number is an unsigned natural (R13);
the width of a field is a parameter (R12, Config.lean), and that each field keeps to its width is part of the invariant (Safety.lean).
-/

namespace Sys2Proof

/-- One byte of a stream (R14). -/
abbrev Byte := BitVec 8

/-- A finite byte sequence, index 0 received first (R14). -/
abbrev Bytes := List Byte

end Sys2Proof
end

