-- ==== Sys2Proof/Config.lean ====
section
/-!
DEFINITION. The parameters of R12, with the values this hardware takes as defaults. Those of the formats and of FR are the record
`Params`, an argument of every function that reads one, held in State and written by no step (R45, R220).
N_CONN is the length of the list of a system (Machine/System.lean); the parameters of the transform
unit are the record `TuParams` (Machine/Transform.lean).
-/

namespace Sys2Proof

namespace Config

/-- The default HDR_BYTES (R12). -/
def hdrBytesDefault : Nat := 4

/-- The default OP_BITS (R12). -/
def opBitsDefault : Nat := 5

/-- The default LEN_BITS (R12). -/
def lenBitsDefault : Nat := 27

/-- The default LEN_MAX, 2^27 - 1 (R12). -/
def lenMaxDefault : Nat := 134217727

/-- The default RLEN_BITS (R12). -/
def rlenBitsDefault : Nat := 32

/-- The default RLEN_MAX, 2^32 - 1 (R12). -/
def rlenMaxDefault : Nat := 4294967295

/-- The default CHUNK_MAX (R12). -/
def chunkMaxDefault : Nat := 1024

/-- The default VALID_OPS, the supported opcodes (R12, R47). -/
def validOpsDefault : List Nat := [1, 2, 4, 8, 16]

/-- The default ERROR_TEXT, the ASCII bytes of "error" (R12). -/
def errorTextDefault : Bytes := [0x65, 0x72, 0x72, 0x6F, 0x72]

/-- The default BUF_CAP, `LEN_MAX + 3 + CHUNK_MAX` (R12). -/
def bufCapDefault : Nat := 134218754

/-- The default BUFLEN_BITS (R12). -/
def buflenBitsDefault : Nat := 28

end Config

/-- STOP_POLICY: what a stop does to an in-flight connection (R12, R195). -/
inductive StopPolicy where
  /-- Abandon the connection at once. -/
  | immediate
  /-- Let the connection run to its teardown. -/
  | afterConnection
deriving DecidableEq, Repr

/-- The parameters of R12 that the formats and FR's steps read; the defaults are this hardware's values. -/
structure Params where
  /-- HDR_BYTES, bytes of the request header and of the response length prefix. -/
  hdrBytes : Nat := Config.hdrBytesDefault
  /-- OP_BITS, width of the opcode field: the header's bits above the length field. -/
  opBits : Nat := Config.opBitsDefault
  /-- LEN_BITS, width of the request length field: the header's low bits. -/
  lenBits : Nat := Config.lenBitsDefault
  /-- LEN_MAX, the largest declared payload length. -/
  lenMax : Nat := Config.lenMaxDefault
  /-- RLEN_BITS, width of the response length prefix. -/
  rlenBits : Nat := Config.rlenBitsDefault
  /-- RLEN_MAX, the largest response payload in bytes. -/
  rlenMax : Nat := Config.rlenMaxDefault
  /-- CHUNK_MAX, the largest ingress chunk in bytes. -/
  chunkMax : Nat := Config.chunkMaxDefault
  /-- VALID_OPS, the supported opcodes: the selector table of R47. -/
  validOps : List Nat := Config.validOpsDefault
  /-- ERROR_TEXT, the payload of the response to an unsupported opcode. -/
  errorText : Bytes := Config.errorTextDefault
  /-- BUF_CAP, capacity of the Connection Buffer in bytes. -/
  bufCap : Nat := Config.bufCapDefault
  /-- BUFLEN_BITS, width of the buffer occupancy counter. -/
  buflenBits : Nat := Config.buflenBitsDefault
  /-- STOP_POLICY. -/
  stopPolicy : StopPolicy := .immediate
deriving DecidableEq, Repr

/-- DEDUCED (log entry 20), safe. What R12's meanings ask of the widths together: the header is the opcode field and the length field
and nothing else (R81, R103), the response length prefix has as many bytes (R84), and LEN_MAX is the longest length the field spells. -/
abbrev Params.FormatOk (p : Params) : Prop :=
  0 < p.hdrBytes ∧ p.opBits + p.lenBits = 8 * p.hdrBytes ∧ p.rlenBits = 8 * p.hdrBytes ∧ p.lenMax + 1 = 2 ^ p.lenBits

/-- R12 asks `2^BUFLEN_BITS > BUF_CAP`, so that the occupancy counter never wraps (R33). -/
abbrev Params.CounterFits (p : Params) : Prop := p.bufCap < 2 ^ p.buflenBits

/-- The response length prefix spells every length up to RLEN_MAX, and ERROR_TEXT is no longer than that (R12, R84, R170). -/
abbrev Params.ResponsesFit (p : Params) : Prop := p.rlenMax < 2 ^ p.rlenBits ∧ p.errorText.length ≤ p.rlenMax

/-- The longest buffer in which no frame is complete (R41): one byte short of the longest frame; `LEN_MAX + 3` by default. -/
def Params.residueMax (p : Params) : Nat := p.hdrBytes + p.lenMax - 1

/-- The capacity with which no conforming stream overflows (R12, R41): by default `LEN_MAX + 3 + CHUNK_MAX <= BUF_CAP`. -/
abbrev Params.Roomy (p : Params) : Prop := p.residueMax + p.chunkMax ≤ p.bufCap

end Sys2Proof
end

