-- ==== Sys2Proof/Syntax.lean ====
section
/-!
DEFINITION. The instruction set: one constructor per row of spec/opcode_table.json, that is per opcode value (R1, R85).
An instruction is a whole request frame (R80): its constructor is the opcode, its one operand the payload bytes;
the declared length of a frame is the length of its payload (R111 to R116: "|p| = L").
-/

namespace Sys2Proof

/-- A request frame, by opcode (R85). -/
inductive Instr where
  /-- `UNSUP op=0` (R116). -/
  | unsupOp0 (payload : Bytes)
  /-- `UPPER`, opcode 1 (R111). -/
  | upper (payload : Bytes)
  /-- `LOWER`, opcode 2 (R112). -/
  | lower (payload : Bytes)
  /-- `UNSUP op=3` (R116). -/
  | unsupOp3 (payload : Bytes)
  /-- `REVERSE`, opcode 4 (R113). -/
  | reverse (payload : Bytes)
  /-- `UNSUP op=5` (R116). -/
  | unsupOp5 (payload : Bytes)
  /-- `UNSUP op=6` (R116). -/
  | unsupOp6 (payload : Bytes)
  /-- `UNSUP op=7` (R116). -/
  | unsupOp7 (payload : Bytes)
  /-- `SHUFFLE`, opcode 8 (R114). -/
  | shuffle (payload : Bytes)
  /-- `UNSUP op=9` (R116). -/
  | unsupOp9 (payload : Bytes)
  /-- `UNSUP op=10` (R116). -/
  | unsupOp10 (payload : Bytes)
  /-- `UNSUP op=11` (R116). -/
  | unsupOp11 (payload : Bytes)
  /-- `UNSUP op=12` (R116). -/
  | unsupOp12 (payload : Bytes)
  /-- `UNSUP op=13` (R116). -/
  | unsupOp13 (payload : Bytes)
  /-- `UNSUP op=14` (R116). -/
  | unsupOp14 (payload : Bytes)
  /-- `UNSUP op=15` (R116). -/
  | unsupOp15 (payload : Bytes)
  /-- `RANDOMIZE`, opcode 16 (R115). -/
  | randomize (payload : Bytes)
  /-- `UNSUP op=17` (R116). -/
  | unsupOp17 (payload : Bytes)
  /-- `UNSUP op=18` (R116). -/
  | unsupOp18 (payload : Bytes)
  /-- `UNSUP op=19` (R116). -/
  | unsupOp19 (payload : Bytes)
  /-- `UNSUP op=20` (R116). -/
  | unsupOp20 (payload : Bytes)
  /-- `UNSUP op=21` (R116). -/
  | unsupOp21 (payload : Bytes)
  /-- `UNSUP op=22` (R116). -/
  | unsupOp22 (payload : Bytes)
  /-- `UNSUP op=23` (R116). -/
  | unsupOp23 (payload : Bytes)
  /-- `UNSUP op=24` (R116). -/
  | unsupOp24 (payload : Bytes)
  /-- `UNSUP op=25` (R116). -/
  | unsupOp25 (payload : Bytes)
  /-- `UNSUP op=26` (R116). -/
  | unsupOp26 (payload : Bytes)
  /-- `UNSUP op=27` (R116). -/
  | unsupOp27 (payload : Bytes)
  /-- `UNSUP op=28` (R116). -/
  | unsupOp28 (payload : Bytes)
  /-- `UNSUP op=29` (R116). -/
  | unsupOp29 (payload : Bytes)
  /-- `UNSUP op=30` (R116). -/
  | unsupOp30 (payload : Bytes)
  /-- `UNSUP op=31` (R116). -/
  | unsupOp31 (payload : Bytes)
deriving DecidableEq, Repr

/-- The operand of a frame: its payload, raw bytes (R83). -/
def Instr.payload : Instr → Bytes
  | .unsupOp0 p => p
  | .upper p => p
  | .lower p => p
  | .unsupOp3 p => p
  | .reverse p => p
  | .unsupOp5 p => p
  | .unsupOp6 p => p
  | .unsupOp7 p => p
  | .shuffle p => p
  | .unsupOp9 p => p
  | .unsupOp10 p => p
  | .unsupOp11 p => p
  | .unsupOp12 p => p
  | .unsupOp13 p => p
  | .unsupOp14 p => p
  | .unsupOp15 p => p
  | .randomize p => p
  | .unsupOp17 p => p
  | .unsupOp18 p => p
  | .unsupOp19 p => p
  | .unsupOp20 p => p
  | .unsupOp21 p => p
  | .unsupOp22 p => p
  | .unsupOp23 p => p
  | .unsupOp24 p => p
  | .unsupOp25 p => p
  | .unsupOp26 p => p
  | .unsupOp27 p => p
  | .unsupOp28 p => p
  | .unsupOp29 p => p
  | .unsupOp30 p => p
  | .unsupOp31 p => p

/-- The opcode of a frame (R83, R85). -/
def Instr.op : Instr → Nat
  | .unsupOp0 _ => 0
  | .upper _ => 1
  | .lower _ => 2
  | .unsupOp3 _ => 3
  | .reverse _ => 4
  | .unsupOp5 _ => 5
  | .unsupOp6 _ => 6
  | .unsupOp7 _ => 7
  | .shuffle _ => 8
  | .unsupOp9 _ => 9
  | .unsupOp10 _ => 10
  | .unsupOp11 _ => 11
  | .unsupOp12 _ => 12
  | .unsupOp13 _ => 13
  | .unsupOp14 _ => 14
  | .unsupOp15 _ => 15
  | .randomize _ => 16
  | .unsupOp17 _ => 17
  | .unsupOp18 _ => 18
  | .unsupOp19 _ => 19
  | .unsupOp20 _ => 20
  | .unsupOp21 _ => 21
  | .unsupOp22 _ => 22
  | .unsupOp23 _ => 23
  | .unsupOp24 _ => 24
  | .unsupOp25 _ => 25
  | .unsupOp26 _ => 26
  | .unsupOp27 _ => 27
  | .unsupOp28 _ => 28
  | .unsupOp29 _ => 29
  | .unsupOp30 _ => 30
  | .unsupOp31 _ => 31

end Sys2Proof
end

