-- ==== Sys2Proof/WellFormed.lean ====
section
/-!
DEFINITION. Which frames a header can spell (R80, R82, R102): the opcode fits its field and the payload's length the length field.
-/

namespace Sys2Proof

/-- The two checks (R102): by default `op < 32` and `len < 2^27`, else no header spells the frame. Every payload content is legal (R86). -/
abbrev Instr.WellFormed (par : Params) (i : Instr) : Prop := i.op < 2 ^ par.opBits ∧ i.payload.length ≤ par.lenMax

end Sys2Proof
end

