-- ==== Sys2Proof/Decode.lean ====
section
/-!
DEFINITION. The header codec (R100 to R103), the frame decoder over any byte sequence, and after it the encoder, each for the
formats the parameters of R12 give; the numbers in the rules are the default parameters'.
Decoding never fails for want of a meaning (R86): what it rejects, by name, is a byte sequence that holds no complete frame yet.
-/

namespace Sys2Proof

/-! Byte order (R15, R63, R64). -/

/-- The big-endian value of a byte sequence, the first byte the most significant; `BE32` of four bytes (R15). -/
def beNat : Bytes → Nat
  | [] => 0
  | b :: bs => b.toNat * 256 ^ bs.length + beNat bs

/-- The `n` low bytes of `v`, most significant first; `be32bytes` for `n = 4` (R15). -/
def beBytes : Nat → Nat → Bytes
  | 0, _ => []
  | n + 1, v => BitVec.ofNat 8 (v / 256 ^ n) :: beBytes n v

/-- `s[a..a+n)` (R14, R16 `MemRead`): `n` bytes from offset `a`. -/
def slice (s : Bytes) (a n : Nat) : Bytes := (s.drop a).take n

/-! The header codec. -/

/-- `decodeHeader` (R100): by default `H[31:27]` and `H[26:0]`, a field `v[hi:lo]` being `(v >> lo) mod 2^(hi-lo+1)` (R13). -/
def decodeHeader (par : Params) (h : Nat) : Nat × Nat := ((h >>> par.lenBits) % 2 ^ par.opBits, h % 2 ^ par.lenBits)

/-- `headAt` (R101): the header at the head of a byte sequence; refused (`none`) on fewer bytes than a header has. -/
def headAt (par : Params) (bs : Bytes) : Option Nat :=
  if bs.length < par.hdrBytes then none else some (beNat (bs.take par.hdrBytes))

/-- `encodeHeader` (R102): refused (`none`) when an argument does not fit its field, never masked. -/
def encodeHeader (par : Params) (op len : Nat) : Option Nat :=
  if op < 2 ^ par.opBits ∧ len < 2 ^ par.lenBits then some ((op <<< par.lenBits) ||| len) else none

/-! The opcode map. -/

/-- The frame with opcode `op` and payload `p`: the opcode map of R85, every value of a 5-bit field mapped (R86). DEDUCED (log
entry 20), safe: the opcode table names no row for the further values that a wider opcode field spells. -/
def instrOf (op : Nat) (p : Bytes) : Option Instr :=
  match op with
  | 0 => some (.unsupOp0 p)
  | 1 => some (.upper p)
  | 2 => some (.lower p)
  | 3 => some (.unsupOp3 p)
  | 4 => some (.reverse p)
  | 5 => some (.unsupOp5 p)
  | 6 => some (.unsupOp6 p)
  | 7 => some (.unsupOp7 p)
  | 8 => some (.shuffle p)
  | 9 => some (.unsupOp9 p)
  | 10 => some (.unsupOp10 p)
  | 11 => some (.unsupOp11 p)
  | 12 => some (.unsupOp12 p)
  | 13 => some (.unsupOp13 p)
  | 14 => some (.unsupOp14 p)
  | 15 => some (.unsupOp15 p)
  | 16 => some (.randomize p)
  | 17 => some (.unsupOp17 p)
  | 18 => some (.unsupOp18 p)
  | 19 => some (.unsupOp19 p)
  | 20 => some (.unsupOp20 p)
  | 21 => some (.unsupOp21 p)
  | 22 => some (.unsupOp22 p)
  | 23 => some (.unsupOp23 p)
  | 24 => some (.unsupOp24 p)
  | 25 => some (.unsupOp25 p)
  | 26 => some (.unsupOp26 p)
  | 27 => some (.unsupOp27 p)
  | 28 => some (.unsupOp28 p)
  | 29 => some (.unsupOp29 p)
  | 30 => some (.unsupOp30 p)
  | 31 => some (.unsupOp31 p)
  | _ => none

/-! Frames. -/

/-- Why a byte sequence holds no complete frame at its head (R39), or no row of the opcode table names the one it holds. -/
inductive DecodeError where
  /-- Fewer bytes than a header has. -/
  | awaitingHeader
  /-- A header with fewer payload bytes than it declares. -/
  | awaitingPayload
  /-- A complete frame with an opcode above 31, in a format whose opcode field is wider than 5 bits. -/
  | noRow
deriving DecidableEq, Repr

/-- The frame at the head of `bs`, as its opcode and its payload, and the bytes after it (R82, R83, R143). -/
def headFrame (par : Params) (bs : Bytes) : Except DecodeError (Nat × Bytes × Bytes) :=
  match headAt par bs with
  | none => .error .awaitingHeader
  | some h =>
    if bs.length < par.hdrBytes + (decodeHeader par h).2 then .error .awaitingPayload
    else .ok ((decodeHeader par h).1, slice bs par.hdrBytes (decodeHeader par h).2,
      bs.drop (par.hdrBytes + (decodeHeader par h).2))

/-- The instruction at the head of `bs` and the bytes after it: total on every byte sequence. -/
def decode (par : Params) (bs : Bytes) : Except DecodeError (Instr × Bytes) :=
  match headFrame par bs with
  | .error e => .error e
  | .ok (op, pay, rest) =>
    match instrOf op pay with
    | none => .error .noRow
    | some i => .ok (i, rest)

/-- The frame notation of R89: `FRAME op=N len=L payload`, where the declared length may differ from the payload's. -/
def frameOf (par : Params) (op len : Nat) (p : Bytes) : Option Bytes :=
  (encodeHeader par op len).map fun h => beBytes par.hdrBytes h ++ p

/-- The bytes of a frame (R80, R89); `none` for a frame that no header spells. -/
def encode (par : Params) (i : Instr) : Option Bytes := frameOf par i.op i.payload.length i.payload

/-! The opcode table's numbering of a header. -/

/-- The header whose bits are `w`, big-endian as it stands on the wire (R63), and after it a payload of the declared
length whose bytes are all zero. -/
def tableBytes (par : Params) (nbits w : Nat) : Bytes :=
  beBytes par.hdrBytes (w % 2 ^ nbits) ++ List.replicate (decodeHeader par (w % 2 ^ nbits)).2 0

/-- The instruction the decoder reads, in the default format, from the header word `w` of the opcode table followed by zero bytes. -/
def decodeTableWord (nbits w : Nat) : Option Instr :=
  match decode {} (tableBytes {} nbits w) with
  | .ok (i, _) => some i
  | .error _ => none

end Sys2Proof
end

