-- ==== Sys2Proof/Machine/State.lean ====
section
/-!
DEFINITION. The state of one FR instance (R30 to R38), the parameters it is built with (R12), the input pins the
other agents drive (R6 to R10), the history of transfers, and the reset state (R220).
-/

namespace Sys2Proof.Machine

/-- `cs`, the connection state (R30). Codes 5 to 7 are never held, so they have no constructor. -/
inductive ConnState where
  /-- Waiting for an accept. -/
  | listen
  /-- A connection is open. -/
  | conn
  /-- The connection has ended; teardown is pending. -/
  | closed
  /-- The stop was taken. -/
  | stopped
  /-- A fault was taken. -/
  | halted
deriving DecidableEq, Repr

/-- `seq`, the sequencer point within a connection (R31). -/
inductive SeqPoint where
  /-- Waiting for an ingress transfer. -/
  | rx
  /-- Looking for a complete frame in `buf`. -/
  | drain
  /-- A transform request is outstanding. -/
  | xfWait
  /-- A response is being written. -/
  | tx
deriving DecidableEq, Repr

/-- `fault_code` (R37, R191). Code 3 is never written, so it has no constructor. -/
inductive FaultCode where
  /-- `F_NONE`. -/
  | none
  /-- `F_BUF_OVERFLOW`. -/
  | bufOverflow
  /-- `F_RSP_TOO_LONG`. -/
  | rspTooLong
deriving DecidableEq, Repr

/-- What the transport offers on the ingress channel (R7). `rx_kind = 3` is never driven (R11) and has no constructor. -/
inductive RxOffer where
  /-- `CHUNK(n, d)`: the bytes of one read, in arrival order. -/
  | chunk (d : Bytes)
  /-- `FIN`: the zero-length read. -/
  | fin
  /-- `RERR`: a read error or peer reset. -/
  | rerr
deriving DecidableEq, Repr

/-- The transform unit's answer (R9). -/
inductive TuAnswer where
  /-- `XRSP_OK(r)`. -/
  | ok (r : Bytes)
  /-- `XRSP_FAIL`. -/
  | fail
deriving DecidableEq, Repr

/-- The egress consumer's reaction to the byte FR offers (R8). -/
inductive TxAnswer where
  /-- It delays. -/
  | hold
  /-- It accepts the byte. -/
  | accept
  /-- `TERR`: a write error. -/
  | err
deriving DecidableEq, Repr

/-- FR's inputs in one step (R6 to R10): what every other agent offers or asserts in it. The defaults are the pins
when nobody drives them. -/
structure Pins where
  /-- `rst` (R10, R220). -/
  rst : Bool := false
  /-- `stop` (R10, R194). -/
  stop : Bool := false
  /-- `acc_valid`: the transport offers `ACCEPT` (R6). -/
  acc : Bool := false
  /-- `rx_valid` with its kind and bytes (R7). -/
  rx : Option RxOffer := none
  /-- `xq_ready`: the TU would take a request (R9). -/
  xqReady : Bool := false
  /-- `xr_valid` with the answer (R9). -/
  xr : Option TuAnswer := none
  /-- `tx_ready` or `tx_err` (R8). -/
  tx : TxAnswer := .hold
deriving DecidableEq, Repr

/-- What the history records: the transfers on FR's channels (R6 to R9), its event pulses (R10), and the extraction of a
frame (R143), which R40 and R173 count. -/
inductive Event where
  /-- `ACCEPT` was taken (R160). -/
  | accepted
  /-- A chunk was taken (R141). -/
  | chunk (d : Bytes)
  /-- `FIN` was taken (R166). -/
  | fin
  /-- `RERR` was taken (R167). -/
  | rerr
  /-- A frame was sliced out of the buffer (R143). -/
  | extracted (op : Nat) (pay : Bytes)
  /-- `XREQ(op, p)` went to the TU (R162). -/
  | xreq (op : Nat) (pay : Bytes)
  /-- `XRSP_OK(r)` was taken (R163). -/
  | xrspOk (r : Bytes)
  /-- `XRSP_FAIL` was taken (R165). -/
  | xrspFail
  /-- One egress byte went out (R164). -/
  | txByte (b : Byte)
  /-- `TERR` was taken (R169). -/
  | txErr
  /-- `evt_open` (R160). -/
  | evtOpen
  /-- `evt_close` (R168). -/
  | evtClose
  /-- `evt_stop` (R168, R195). -/
  | evtStop
deriving DecidableEq, Repr

/-- One FR instance with its surroundings. The fields `cs` to `stopReq` are FR's own storage (R30 to R38, R42). -/
structure State where
  /-- DESIGN CHOICE (log entry 2), safe. The parameters (R12). No step writes them. -/
  par : Params
  /-- `cs` (R30). -/
  cs : ConnState
  /-- `seq` (R31). -/
  seq : SeqPoint
  /-- `buf`, the Connection Buffer, oldest unconsumed byte first (R32). -/
  buf : Bytes
  /-- `buflen`, the occupancy counter, BUFLEN_BITS wide (R33); DEDUCED (log entry 11), safe: kept by adding and subtracting. -/
  buflen : Nat
  /-- `cur_op`, OP_BITS wide (R34). -/
  curOp : Nat
  /-- `cur_len`, LEN_BITS wide (R34). -/
  curLen : Nat
  /-- `cur_pay` (R35). -/
  curPay : Bytes
  /-- `txq`, the bytes of the current response not yet written (R36). -/
  txq : Bytes
  /-- `fault_code` (R37). -/
  faultCode : FaultCode
  /-- `stop_req` (R38). -/
  stopReq : Bool
  /-- DESIGN CHOICE (log entry 1), safe. The model's own: what the other agents offer and assert, one record per step, this
  step's first. An offer that a step does not take stands in the next step's record (R5; an answer while its request is outstanding, R228,
  log entry 19); past the end nothing new is offered. -/
  env : List Pins
  /-- DESIGN CHOICE (log entry 3), safe. The model's own: what has happened, newest first. No step reads it. -/
  hist : List Event
deriving DecidableEq, Repr

/-- Why the model stops with a fault. FR's own two faults (R191) are not here: a step that raises one goes on to the
state HALTED (R192). -/
inductive Fault where
  /-- DESIGN CHOICE (log entry 9). Raised by the sequencer at (CONN, TX) when `txq` is empty, which R36 excludes and no run reaches. Safe: the spec gives
  such a state no step. -/
  | stagingEmpty
deriving DecidableEq, Repr

/-- Why the model refuses a step. -/
inductive Refusal where
  /-- An instruction that has no meaning yet. No arm uses it. Safe. -/
  | notModelled (mnemonic : String)
  /-- DESIGN CHOICE (log entry 8). Raised by the sequencer at (CONN, RX) when the transport offers a `CHUNK` of no byte or of more than CHUNK_MAX bytes,
  which R11 says it never does. Safe: the spec gives such an offer no move. -/
  | nonconformingChunk
deriving DecidableEq, Repr

/-- The state that reset writes (R30 to R38, R220), with the default parameters (R12), nothing offered and nothing
happened yet. -/
def State.reset : State where
  par := {}
  cs := .listen
  seq := .rx
  buf := []
  buflen := 0
  curOp := 0
  curLen := 0
  curPay := []
  txq := []
  faultCode := .none
  stopReq := false
  env := []
  hist := []

end Sys2Proof.Machine
end

