-- ==== Sys2Proof/Machine/Operands.lean ====
section
/-!
DEFINITION. What a step reads: the pins of this step, the bytes of the Connection Buffer by offset (R16, R60), and the
class of an opcode (R104).
-/

namespace Sys2Proof.Machine

/-- The pins of this step; nobody drives them past the end of `env`. -/
def State.pins (s : State) : Pins := s.env.headD {}

/-- The byte of the Connection Buffer at an offset from its head (R60); none at or past `|buf|`. -/
def memByte (s : State) (off : Nat) : Option Byte := s.buf[off]?

/-- `MemRead(off, n)` (R16), none where `off + n <= |buf|` fails. -/
def memRead (s : State) (off n : Nat) : Option Bytes :=
  if off + n ≤ s.buf.length then some (slice s.buf off n) else none

/-- The class of an opcode (R104). -/
inductive OpClass where
  | supported
  | unsupported
deriving DecidableEq, Repr

/-- `classify` (R104): the selector table is a parameter, the same for every instance and never written (R47). -/
def classify (par : Params) (op : Nat) : OpClass := if op ∈ par.validOps then .supported else .unsupported

end Sys2Proof.Machine
end

