-- ==== Sys2Proof/Machine/Flags.lean ====
section
/-!
DEFINITION. FR has no flags (R44); what stands in their place: the derived phase (R39), the output levels (R45) and the
ready and valid outputs of the channels (R6 to R9).
-/

namespace Sys2Proof.Machine

/-- The reassembler's phase (R39). -/
inductive Phase where
  | awaitingHeader
  | awaitingPayload
  | frameReady
deriving DecidableEq, Repr

/-- `phase(buf)` (R39). -/
def phase (par : Params) (buf : Bytes) : Phase :=
  match headAt par buf with
  | none => .awaitingHeader
  | some h => if buf.length < par.hdrBytes + (decodeHeader par h).2 then .awaitingPayload else .frameReady

/-- The `status_cs` code of a connection state (R30). -/
def ConnState.code : ConnState → BitVec 3
  | .listen => 0
  | .conn => 1
  | .closed => 2
  | .stopped => 3
  | .halted => 4

/-- The code of a sequencer point (R31). -/
def SeqPoint.code : SeqPoint → BitVec 2
  | .rx => 0
  | .drain => 1
  | .xfWait => 2
  | .tx => 3

/-- The code of a fault (R37, R191). -/
def FaultCode.code : FaultCode → BitVec 2
  | .none => 0
  | .bufOverflow => 1
  | .rspTooLong => 2

/-- `rx_kind` (R7). -/
def RxOffer.kind : RxOffer → BitVec 2
  | .chunk _ => 0
  | .fin => 1
  | .rerr => 2

/-- The output level `status_cs` (R45). -/
def statusCs (s : State) : BitVec 3 := s.cs.code

/-- The output level `fault_code` (R45). -/
def faultLevel (s : State) : BitVec 2 := s.faultCode.code

/-- `acc_ready` (R6): ready only in LISTEN. -/
def accReady (s : State) : Bool := s.cs == .listen

/-- `rx_ready` (R7): ready only at (CONN, RX). -/
def rxReady (s : State) : Bool := s.cs == .conn && s.seq == .rx

/-- `xr_ready` (R9): ready for an answer only at (CONN, XF_WAIT). -/
def xrReady (s : State) : Bool := s.cs == .conn && s.seq == .xfWait

/-- `tx_valid` with `tx_data` (R8): the byte FR offers, at (CONN, TX) only. -/
def txOffer (s : State) : Option Byte := if s.cs = .conn ∧ s.seq = .tx then s.txq.head? else none

/-- `xq_valid` with `xq_op` and the payload (R9, R162): the request FR offers at (CONN, DRAIN), for a complete frame with a
supported opcode. -/
def xqOffer (s : State) : Option (Nat × Bytes) :=
  if s.cs = .conn ∧ s.seq = .drain then
    match headFrame s.par s.buf with
    | .ok (op, pay, _) => if classify s.par op = .supported then some (op, pay) else none
    | .error _ => none
  else none

/-- Whether a `stop` would be taken (R194): not yet taken, and FR in LISTEN, CONN or CLOSED. -/
def stopOpen (s : State) : Bool :=
  !s.stopReq && (s.cs == .listen || s.cs == .conn || s.cs == .closed)

/-- Whether this step takes a stop (R194, R196): `stop` asserted and open, `rst` not asserted. -/
def stopTaken (s : State) : Bool := !s.pins.rst && s.pins.stop && stopOpen s

/-- Whether the control point's own step runs (R196): neither reset nor stop takes this step. -/
def pointEnabled (s : State) : Bool := !s.pins.rst && !stopTaken s

end Sys2Proof.Machine
end

