-- ==== Sys2Proof/Machine/Channels.lean ====
section
/-!
DEFINITION. The channels FR is the consumer of (R5): an offer stands until FR takes it, nothing is dropped and nothing overtakes.
In `env` each record's accept, ingress and answer are new offers; an offer that a step does not take is put back in front of that
channel's offers to come, which move on by a record where they must. An answer to no outstanding request is no such offer: it has
no move (R228). What the host asserts and what the consumers are ready for belongs to its own step and is not put back.
-/

namespace Sys2Proof.Machine

/-- An accept waits in front of the accepts to come (R5). -/
def holdAcc : Bool → List Pins → List Pins
  | false, ps => ps
  | true, [] => [{ acc := true }]
  | true, p :: ps => { p with acc := true } :: holdAcc p.acc ps

/-- An ingress transfer waits in front of those to come (R5, R224). -/
def holdRx : Option RxOffer → List Pins → List Pins
  | none, ps => ps
  | some o, [] => [{ rx := some o }]
  | some o, p :: ps => { p with rx := some o } :: holdRx p.rx ps

/-- An answer of the transform unit waits in front of those to come (R5). -/
def holdXr : Option TuAnswer → List Pins → List Pins
  | none, ps => ps
  | some a, [] => [{ xr := some a }]
  | some a, p :: ps => { p with xr := some a } :: holdXr p.xr ps

/-- The offers of the record `w` wait in front of the records `ps`. -/
def waiting (w : Pins) (ps : List Pins) : List Pins := holdAcc w.acc (holdRx w.rx (holdXr w.xr ps))

/-- Whether FR takes an offered accept in this step (R6, R196). -/
def accOpen (s : State) : Bool := pointEnabled s && accReady s

/-- Whether FR takes an offered ingress transfer in this step (R7, R196). -/
def rxOpen (s : State) : Bool := pointEnabled s && rxReady s

/-- The offers this step leaves standing. DEDUCED (log entry 19), safe: an answer stands only while its request is outstanding, so
that one given early, late or twice, or to a request that is abandoned, is never taken (R228, R195, R220). -/
def untaken (s : State) : Pins :=
  { acc := s.pins.acc && !accOpen s
    rx := if rxOpen s then none else s.pins.rx
    xr := if xrReady s && !pointEnabled s then s.pins.xr else none }

/-- The inputs after this step: the offers left standing, and the records to come. -/
def nextEnv (s : State) : List Pins := waiting (untaken s) s.env.tail

/-- `s` with the offers that this step does not take waiting behind this step's record. -/
def State.hold (s : State) : State := { s with env := s.pins :: nextEnv s }

/-- A record of inputs arrives while the offers at the head of `env` stand: a producer whose offer stands waits with the next. -/
def arrive (p : Pins) (env : List Pins) : List Pins := waiting (env.headD {}) (p :: env.tail)

end Sys2Proof.Machine
end

