-- ==== Sys2Proof/Machine/Ops.lean ====
section
/-!
DEFINITION. The named operations over the state: the buffer's accesses (R16, R67), the passing of a step, the record of
an emission, fault entry (R192), reset, which is the only way out of a fault (R193, R220), the response framer (R170), and the
extraction of a frame with its dispatch (R143, R161, R162), which every opcode shares.
-/

namespace Sys2Proof.Machine

/-- The step's pins are spent: the next step reads the next record. -/
def State.tick (s : State) : State := { s with env := s.env.tail }

/-- `emit e` (R16): record a transfer or an event pulse. -/
def State.emit (e : Event) (s : State) : State := { s with hist := e :: s.hist }

/-- A counter of `w` bits counts `n` up from `c` (R33). -/
def countUp (w n c : Nat) : Nat := (c + n) % 2 ^ w

/-- A counter of `w` bits counts `n` down from `c` (R33). -/
def countDown (w n c : Nat) : Nat := (c + 2 ^ w - n % 2 ^ w) % 2 ^ w

/-- `MemAppend(d)` (R16), the counter following (R33). -/
def memAppend (d : Bytes) (s : State) : State :=
  { s with buf := s.buf ++ d, buflen := countUp s.par.buflenBits d.length s.buflen }

/-- `MemDrop(n)` (R16), the counter following (R33). -/
def memDrop (n : Nat) (s : State) : State :=
  { s with buf := s.buf.drop n, buflen := countDown s.par.buflenBits n s.buflen }

/-- `buf <- [] ; cur_pay <- [] ; txq <- []`, as accept, teardown and stop do (R160, R168, R195). -/
def clearBuffers (s : State) : State := { s with buf := [], buflen := 0, curPay := [], txq := [] }

/-- `raise Fault(c)` (R192): the code and HALTED, nothing else. -/
def raiseFault (c : FaultCode) (s : State) : State := { s with faultCode := c, cs := .halted }

/-- The reset action (R220): every field of R30 to R38 at its reset value; the parameters stay, and no event is emitted. -/
def takeReset (s : State) : State := { State.reset with par := s.par, env := s.env, hist := s.hist }

/-- The response framer `frame(r)` (R170): the byte count as an RLEN_BITS wide number in HDR_BYTES bytes, big-endian, then the bytes. -/
def frame (par : Params) (r : Bytes) : Bytes := beBytes par.hdrBytes (r.length % 2 ^ par.rlenBits) ++ r

/-- The head of EXTRACT (R143): drop the whole frame and latch its header and payload. -/
def latchFrame (op : Nat) (pay : Bytes) (s : State) : State :=
  ({ memDrop (s.par.hdrBytes + pay.length) s with
      curOp := op, curLen := pay.length, curPay := pay }).emit (.extracted op pay)

/-- `DISPATCH_UNSUP` (R161). -/
def dispatchUnsup (s : State) : State :=
  { s with txq := frame s.par s.par.errorText, curPay := [], seq := .tx }

/-- `DISPATCH_XF` (R162). -/
def dispatchXf (s : State) : State := { s with seq := .xfWait }.emit (.xreq s.curOp s.curPay)

/-- EXTRACT with its dispatch (R143): one atomic step. For a supported opcode it is enabled only when the TU takes the request
in the same step; until then the frame stays in `buf` (R162). DESIGN CHOICE (log entry 16), safe: that the state
is at (CONN, DRAIN) with this frame at the head of `buf` is the caller's. -/
def extract (op : Nat) (pay : Bytes) (s : State) : Host.Outcome State Fault Refusal :=
  match classify s.par op with
  | .unsupported => .next (dispatchUnsup (latchFrame op pay s)).tick
  | .supported =>
    if s.pins.xqReady then .next (dispatchXf (latchFrame op pay s)).tick
    else .next s.tick

end Sys2Proof.Machine
end

