-- ==== Sys2Proof/Machine/Supported.lean ====
section
/-!
DEFINITION. The five supported opcodes (R111 to R115): extract the frame and hand its payload to the transform unit.
-/

namespace Sys2Proof.Machine

/-- `UPPER` (R111): extract the frame and request transform 1 of its payload. -/
def execUpper (p : Bytes) (s : State) : Host.Outcome State Fault Refusal :=
  extract 1 p s

/-- `LOWER` (R112): extract the frame and request transform 2 of its payload. -/
def execLower (p : Bytes) (s : State) : Host.Outcome State Fault Refusal :=
  extract 2 p s

/-- `REVERSE` (R113): extract the frame and request transform 4 of its payload. -/
def execReverse (p : Bytes) (s : State) : Host.Outcome State Fault Refusal :=
  extract 4 p s

/-- `SHUFFLE` (R114): extract the frame and request transform 8 of its payload. -/
def execShuffle (p : Bytes) (s : State) : Host.Outcome State Fault Refusal :=
  extract 8 p s

/-- `RANDOMIZE` (R115): extract the frame and request transform 16 of its payload. -/
def execRandomize (p : Bytes) (s : State) : Host.Outcome State Fault Refusal :=
  extract 16 p s

end Sys2Proof.Machine
end

