-- ==== Sys2Proof/Machine/Unsupported.lean ====
section
/-!
DEFINITION. The 27 unsupported opcodes (R116): extract the frame and stage the response "error".
-/

namespace Sys2Proof.Machine

/-- `UNSUP op=0` (R116). -/
def execUnsupOp0 (p : Bytes) (s : State) : Host.Outcome State Fault Refusal :=
  extract 0 p s

/-- `UNSUP op=3` (R116). -/
def execUnsupOp3 (p : Bytes) (s : State) : Host.Outcome State Fault Refusal :=
  extract 3 p s

/-- `UNSUP op=5` (R116). -/
def execUnsupOp5 (p : Bytes) (s : State) : Host.Outcome State Fault Refusal :=
  extract 5 p s

/-- `UNSUP op=6` (R116). -/
def execUnsupOp6 (p : Bytes) (s : State) : Host.Outcome State Fault Refusal :=
  extract 6 p s

/-- `UNSUP op=7` (R116). -/
def execUnsupOp7 (p : Bytes) (s : State) : Host.Outcome State Fault Refusal :=
  extract 7 p s

/-- `UNSUP op=9` (R116). -/
def execUnsupOp9 (p : Bytes) (s : State) : Host.Outcome State Fault Refusal :=
  extract 9 p s

/-- `UNSUP op=10` (R116). -/
def execUnsupOp10 (p : Bytes) (s : State) : Host.Outcome State Fault Refusal :=
  extract 10 p s

/-- `UNSUP op=11` (R116). -/
def execUnsupOp11 (p : Bytes) (s : State) : Host.Outcome State Fault Refusal :=
  extract 11 p s

/-- `UNSUP op=12` (R116). -/
def execUnsupOp12 (p : Bytes) (s : State) : Host.Outcome State Fault Refusal :=
  extract 12 p s

/-- `UNSUP op=13` (R116). -/
def execUnsupOp13 (p : Bytes) (s : State) : Host.Outcome State Fault Refusal :=
  extract 13 p s

/-- `UNSUP op=14` (R116). -/
def execUnsupOp14 (p : Bytes) (s : State) : Host.Outcome State Fault Refusal :=
  extract 14 p s

/-- `UNSUP op=15` (R116). -/
def execUnsupOp15 (p : Bytes) (s : State) : Host.Outcome State Fault Refusal :=
  extract 15 p s

/-- `UNSUP op=17` (R116). -/
def execUnsupOp17 (p : Bytes) (s : State) : Host.Outcome State Fault Refusal :=
  extract 17 p s

/-- `UNSUP op=18` (R116). -/
def execUnsupOp18 (p : Bytes) (s : State) : Host.Outcome State Fault Refusal :=
  extract 18 p s

/-- `UNSUP op=19` (R116). -/
def execUnsupOp19 (p : Bytes) (s : State) : Host.Outcome State Fault Refusal :=
  extract 19 p s

/-- `UNSUP op=20` (R116). -/
def execUnsupOp20 (p : Bytes) (s : State) : Host.Outcome State Fault Refusal :=
  extract 20 p s

/-- `UNSUP op=21` (R116). -/
def execUnsupOp21 (p : Bytes) (s : State) : Host.Outcome State Fault Refusal :=
  extract 21 p s

/-- `UNSUP op=22` (R116). -/
def execUnsupOp22 (p : Bytes) (s : State) : Host.Outcome State Fault Refusal :=
  extract 22 p s

/-- `UNSUP op=23` (R116). -/
def execUnsupOp23 (p : Bytes) (s : State) : Host.Outcome State Fault Refusal :=
  extract 23 p s

/-- `UNSUP op=24` (R116). -/
def execUnsupOp24 (p : Bytes) (s : State) : Host.Outcome State Fault Refusal :=
  extract 24 p s

/-- `UNSUP op=25` (R116). -/
def execUnsupOp25 (p : Bytes) (s : State) : Host.Outcome State Fault Refusal :=
  extract 25 p s

/-- `UNSUP op=26` (R116). -/
def execUnsupOp26 (p : Bytes) (s : State) : Host.Outcome State Fault Refusal :=
  extract 26 p s

/-- `UNSUP op=27` (R116). -/
def execUnsupOp27 (p : Bytes) (s : State) : Host.Outcome State Fault Refusal :=
  extract 27 p s

/-- `UNSUP op=28` (R116). -/
def execUnsupOp28 (p : Bytes) (s : State) : Host.Outcome State Fault Refusal :=
  extract 28 p s

/-- `UNSUP op=29` (R116). -/
def execUnsupOp29 (p : Bytes) (s : State) : Host.Outcome State Fault Refusal :=
  extract 29 p s

/-- `UNSUP op=30` (R116). -/
def execUnsupOp30 (p : Bytes) (s : State) : Host.Outcome State Fault Refusal :=
  extract 30 p s

/-- `UNSUP op=31` (R116). -/
def execUnsupOp31 (p : Bytes) (s : State) : Host.Outcome State Fault Refusal :=
  extract 31 p s

end Sys2Proof.Machine
end

