-- ==== Sys2Proof/Machine/Dispatch.lean ====
section
/-!
DEFINITION. One arm per opcode value (R85): the meaning of the frame that the drain step extracts.
-/

namespace Sys2Proof.Machine

def exec (i : Instr) (s : State) : Host.Outcome State Fault Refusal :=
  match i with
  | .unsupOp0 p => Sys2Proof.Machine.execUnsupOp0 p s
  | .upper p => Sys2Proof.Machine.execUpper p s
  | .lower p => Sys2Proof.Machine.execLower p s
  | .unsupOp3 p => Sys2Proof.Machine.execUnsupOp3 p s
  | .reverse p => Sys2Proof.Machine.execReverse p s
  | .unsupOp5 p => Sys2Proof.Machine.execUnsupOp5 p s
  | .unsupOp6 p => Sys2Proof.Machine.execUnsupOp6 p s
  | .unsupOp7 p => Sys2Proof.Machine.execUnsupOp7 p s
  | .shuffle p => Sys2Proof.Machine.execShuffle p s
  | .unsupOp9 p => Sys2Proof.Machine.execUnsupOp9 p s
  | .unsupOp10 p => Sys2Proof.Machine.execUnsupOp10 p s
  | .unsupOp11 p => Sys2Proof.Machine.execUnsupOp11 p s
  | .unsupOp12 p => Sys2Proof.Machine.execUnsupOp12 p s
  | .unsupOp13 p => Sys2Proof.Machine.execUnsupOp13 p s
  | .unsupOp14 p => Sys2Proof.Machine.execUnsupOp14 p s
  | .unsupOp15 p => Sys2Proof.Machine.execUnsupOp15 p s
  | .randomize p => Sys2Proof.Machine.execRandomize p s
  | .unsupOp17 p => Sys2Proof.Machine.execUnsupOp17 p s
  | .unsupOp18 p => Sys2Proof.Machine.execUnsupOp18 p s
  | .unsupOp19 p => Sys2Proof.Machine.execUnsupOp19 p s
  | .unsupOp20 p => Sys2Proof.Machine.execUnsupOp20 p s
  | .unsupOp21 p => Sys2Proof.Machine.execUnsupOp21 p s
  | .unsupOp22 p => Sys2Proof.Machine.execUnsupOp22 p s
  | .unsupOp23 p => Sys2Proof.Machine.execUnsupOp23 p s
  | .unsupOp24 p => Sys2Proof.Machine.execUnsupOp24 p s
  | .unsupOp25 p => Sys2Proof.Machine.execUnsupOp25 p s
  | .unsupOp26 p => Sys2Proof.Machine.execUnsupOp26 p s
  | .unsupOp27 p => Sys2Proof.Machine.execUnsupOp27 p s
  | .unsupOp28 p => Sys2Proof.Machine.execUnsupOp28 p s
  | .unsupOp29 p => Sys2Proof.Machine.execUnsupOp29 p s
  | .unsupOp30 p => Sys2Proof.Machine.execUnsupOp30 p s
  | .unsupOp31 p => Sys2Proof.Machine.execUnsupOp31 p s

end Sys2Proof.Machine
end

