-- ==== Sys2Proof/Machine/Sequencer.lean ====
section
/-!
DEFINITION. The steps of the connection sequencer that run no frame (R141, R160, R163 to R169) and the stop (R194, R195).
-/

namespace Sys2Proof.Machine

/-- `ACCEPT` (R160). -/
def takeAccept (s : State) : State :=
  ({ clearBuffers s with cs := .conn, seq := .rx }.emit .accepted).emit .evtOpen

/-- `FEED` of one chunk (R141): fault when it would overflow BUF_CAP, `buf` unchanged then. -/
def feed (d : Bytes) (s : State) : State :=
  if s.par.bufCap < s.buf.length + d.length then raiseFault .bufOverflow s
  else { memAppend d s with seq := .drain }.emit (.chunk d)

/-- `PEER_FIN` (R166). -/
def peerFin (s : State) : State := { s with cs := .closed }.emit .fin

/-- `PEER_ERR` (R167). -/
def peerErr (s : State) : State := { s with cs := .closed }.emit .rerr

/-- `XF_DONE` (R163): fault when the result is longer than RLEN_MAX, nothing staged then. -/
def xfDone (r : Bytes) (s : State) : State :=
  if s.par.rlenMax < r.length then raiseFault .rspTooLong s
  else { s with txq := frame s.par r, curPay := [], seq := .tx }.emit (.xrspOk r)

/-- `XF_FAIL` (R165). -/
def xfFail (s : State) : State := { s with cs := .closed }.emit .xrspFail

/-- `WRITE` of the byte `b` at the head of `txq`, `rest` behind it (R164). -/
def writeByte (b : Byte) (rest : Bytes) (s : State) : State :=
  { s with txq := rest, seq := if rest.isEmpty then .drain else .tx }.emit (.txByte b)

/-- `TX_ERR` (R169). -/
def txErr (s : State) : State := { s with cs := .closed }.emit .txErr

/-- `TEARDOWN` (R168). -/
def teardown (s : State) : State :=
  if s.stopReq then { (clearBuffers s).emit .evtClose with cs := .stopped }.emit .evtStop
  else { (clearBuffers s).emit .evtClose with cs := .listen }

/-- The stop action (R195), setting `stop_req` (R194). -/
def takeStop (s : State) : State :=
  if s.cs = .listen ∨ s.par.stopPolicy = .immediate then
    { clearBuffers s with stopReq := true, cs := .stopped }.emit .evtStop
  else { s with stopReq := true }

end Sys2Proof.Machine
end

