-- ==== Sys2Proof/Machine/Cycle.lean ====
section
/-!
DEFINITION. One step of FR: the step table of R174 by control point, the drain step that runs the frame at the head of the
buffer (R142), and the priority of reset and stop over it (R196). A control point whose input is not offered waits (R202;
DEDUCED, safe, log entry 10): FR's state stays as it is, and what stands on its channels stands on (R5).
-/

namespace Sys2Proof.Machine

/-- (LISTEN, -): wait for `ACCEPT` (R160). -/
def listenPoint (s : State) : Host.Outcome State Fault Refusal :=
  if s.pins.acc then .next (takeAccept s).tick else .next s.tick

/-- (CONN, RX): wait for an ingress transfer (R141, R166, R167). -/
def rxPoint (s : State) : Host.Outcome State Fault Refusal :=
  match s.pins.rx with
  | none => .next s.tick
  | some (.chunk d) =>
    if 1 ≤ d.length ∧ d.length ≤ s.par.chunkMax then .next (feed d s).tick
    else .refused .nonconformingChunk
  | some .fin => .next (peerFin s).tick
  | some .rerr => .next (peerErr s).tick

/-- (CONN, DRAIN): look at the buffer head (R142); a complete frame is decoded and run (R143). DEDUCED (log entry 20),
safe: an opcode above 31, which only an opcode field wider than 5 bits spells, has no instruction of its own and is extracted alike (R104). -/
def drainPoint (s : State) : Host.Outcome State Fault Refusal :=
  match headFrame s.par s.buf with
  | .error _ => .next { s with seq := .rx }.tick
  | .ok (op, pay, _) =>
    match instrOf op pay with
    | some i => exec i s
    | none => extract op pay s

/-- (CONN, XF_WAIT): wait for the TU's answer (R163, R165). -/
def xfWaitPoint (s : State) : Host.Outcome State Fault Refusal :=
  match s.pins.xr with
  | none => .next s.tick
  | some (.ok r) => .next (xfDone r s).tick
  | some .fail => .next (xfFail s).tick

/-- (CONN, TX): offer the next byte of the response (R164, R169). -/
def txPoint (s : State) : Host.Outcome State Fault Refusal :=
  match s.txq with
  | [] => .fault .stagingEmpty
  | b :: rest =>
    match s.pins.tx with
    | .hold => .next s.tick
    | .accept => .next (writeByte b rest s).tick
    | .err => .next (txErr s).tick

/-- The step of the control point (R174). In STOPPED and HALTED only reset enables a step (R193, R195). -/
def pointStep (s : State) : Host.Outcome State Fault Refusal :=
  match s.cs with
  | .listen => listenPoint s
  | .conn =>
    match s.seq with
    | .rx => rxPoint s
    | .drain => drainPoint s
    | .xfWait => xfWaitPoint s
    | .tx => txPoint s
  | .closed => .next (teardown s).tick
  | .stopped => .next s.tick
  | .halted => .next s.tick

/-- The one action of a step: reset over stop over the step of the control point (R196). -/
def turn (s : State) : Host.Outcome State Fault Refusal :=
  if s.pins.rst then .next (takeReset s).tick
  else if stopTaken s then .next (takeStop s).tick
  else pointStep s

/-- One step: its action, with every offer it does not take left standing (R5). -/
def cycle (s : State) : Host.Outcome State Fault Refusal := turn s.hold

/-- FR about to drain the frame `bytes`, with a TU that takes its request in that step: what `ACCEPT` and the frame's chunks
lead to (R160, R141). -/
def placeFrame (bytes : Bytes) (s : State) : State :=
  { s with
    cs := .conn, seq := .drain, buf := bytes, buflen := countUp s.par.buflenBits bytes.length 0,
    env := { xqReady := true } :: s.env }

end Sys2Proof.Machine
end

