-- ==== Sys2Proof/Machine/Step.lean ====
section
/-!
DEFINITION. The step of the machine, and a state that runs a given header of the opcode table next.
-/

namespace Sys2Proof.Machine

/-- One step of FR (R174, R196). -/
def step (s : State) : Host.Outcome State Fault Refusal := cycle s

/-- DESIGN CHOICE (log entry 5). `s` with the frame of header `w` at the head of the buffer and FR at (CONN, DRAIN), the TU
ready: the very next step runs that frame. -/
def State.withFetchWord (s : State) (nbits w : Nat) : State := placeFrame (tableBytes s.par nbits w) s

end Sys2Proof.Machine
end

