-- ==== Sys2Proof/Machine/History.lean ====
section
/-!
DEFINITION. What the spec says of a connection's past (R40, R70, R71, R146, R173), read off the history. Every view is of the
connection that the latest `ACCEPT` opened; the history is newest first, the views oldest first.
-/

namespace Sys2Proof.Machine

/-- The stream `S` received on the connection (R40). -/
def received : List Event → Bytes
  | [] => []
  | .accepted :: _ => []
  | .chunk d :: h => received h ++ d
  | _ :: h => received h

/-- The frames extracted on the connection (R40, R70). -/
def extracted : List Event → List (Nat × Bytes)
  | [] => []
  | .accepted :: _ => []
  | .extracted op p :: h => extracted h ++ [(op, p)]
  | _ :: h => extracted h

/-- The transform requests made on the connection (R162). -/
def requested : List Event → List (Nat × Bytes)
  | [] => []
  | .accepted :: _ => []
  | .xreq op p :: h => requested h ++ [(op, p)]
  | _ :: h => requested h

/-- The response payloads staged on the connection (R173): the TU's result (R163), or ERROR_TEXT for an unsupported frame (R161). -/
def responses (par : Params) : List Event → List Bytes
  | [] => []
  | .accepted :: _ => []
  | .xrspOk r :: h => responses par h ++ [r]
  | .extracted op _ :: h =>
    if classify par op = .unsupported then responses par h ++ [par.errorText] else responses par h
  | _ :: h => responses par h

/-- The bytes written to the peer on the connection (R173). -/
def egress : List Event → Bytes
  | [] => []
  | .accepted :: _ => []
  | .txByte b :: h => egress h ++ [b]
  | _ :: h => egress h

/-- The bytes that spell a frame (R80); none for a frame that no header spells. -/
def wire (par : Params) (f : Nat × Bytes) : Bytes := (frameOf par f.1 f.2.length f.2).getD []

/-- The total length `C` of a list of frames (R40, R82). -/
def framesLength (par : Params) (fs : List (Nat × Bytes)) : Nat := (fs.map fun f => par.hdrBytes + f.2.length).sum

/-- The frames at the head of a stream, with fuel (R146). -/
def framesFuel (par : Params) : Nat → Bytes → List (Nat × Bytes)
  | 0, _ => []
  | k + 1, bs =>
    match headFrame par bs with
    | .ok (op, pay, rest) => (op, pay) :: framesFuel par k rest
    | .error _ => []

/-- `frames(S)` (R146): a frame has a header of at least one byte, so `|S|` turns reach the end. -/
def frames (par : Params) (bs : Bytes) : List (Nat × Bytes) := framesFuel par bs.length bs

/-- The suffix left when `frames` stops, with fuel (R146). -/
def restFuel (par : Params) : Nat → Bytes → Bytes
  | 0, bs => bs
  | k + 1, bs =>
    match headFrame par bs with
    | .ok (_, _, rest) => restFuel par k rest
    | .error _ => bs

/-- `rest(S)` (R146). -/
def rest (par : Params) (bs : Bytes) : Bytes := restFuel par bs.length bs

/-- The concatenated response frames of R173. -/
def framed (par : Params) (rs : List Bytes) : Bytes := rs.flatMap (frame par)

end Sys2Proof.Machine
end

