-- ==== Sys2Proof/Machine/Stream.lean ====
section
/-!
DEFINITION. FR driven from outside: one step on given pins, a run on an unbounded sequence of pins (what R11's duties are
about), and the stream notation of R90.
-/

namespace Sys2Proof.Machine

/-- One step on the pins `p`, which arrive while the offers at the head of `env` stand (R5). -/
def driveStep (p : Pins) (s : State) : Host.Outcome State Fault Refusal := step { s with env := arrive p s.env }

/-- The first `k` steps on the pins `f 0`, `f 1`, …. -/
def drive (f : Nat → Pins) : Nat → State → Host.Outcome State Fault Refusal
  | 0, s => .next s
  | k + 1, s =>
    match drive f k s with
    | .next t => driveStep (f k) t
    | .fault e => .fault e
    | .refused r => .refused r

/-- The run comes, at step `n` or later, to a step in which `p` holds of its inputs, or to a state in which `q` does not hold. -/
def Eventually (f : Nat → Pins) (s : State) (n : Nat) (p : Pins → Prop) (q : State → Prop) : Prop :=
  ∃ m, n ≤ m ∧ (p (f m) ∨ ∃ t, drive f m s = .next t ∧ ¬ q t)

/-- R11's duty of the egress consumer on the run from `s` (DEDUCED, safe, log entry 18): whenever FR offers a byte, that step or a
later one accepts or answers `TERR`, unless a reset or a stop takes the byte back. Nothing is owed while no byte is offered. -/
def EgressDuty (f : Nat → Pins) (s : State) : Prop :=
  ∀ n t, drive f n s = .next t → (txOffer t).isSome = true →
    Eventually f s n (fun p => p.tx ≠ .hold) fun u => (txOffer u).isSome = true

/-- R11's duty of the TU on the run from `s` (DEDUCED, safe, log entry 18): an offered request is taken, and an outstanding one is
answered exactly once, unless a reset or a stop takes the request back. -/
structure TuDuty (f : Nat → Pins) (s : State) : Prop where
  /-- Whenever FR offers a request, that step or a later one takes it. -/
  takes : ∀ n t, drive f n s = .next t → (xqOffer t).isSome = true →
    Eventually f s n (fun p => p.xqReady = true) fun u => (xqOffer u).isSome = true
  /-- Whenever a request is outstanding and not yet answered, that step or a later one answers. -/
  answers : ∀ n t, drive f n s = .next t → xrReady t = true → t.pins.xr = none →
    Eventually f s n (fun p => p.xr ≠ none) fun u => xrReady u = true
  /-- An answer is given only to an outstanding request that has none yet, so each request gets at most one. -/
  once : ∀ n t, drive f n s = .next t → (f n).xr ≠ none → xrReady t = true ∧ t.pins.xr = none

/-- The host never asserts `rst` or `stop`. -/
def HostQuiet (f : Nat → Pins) : Prop := ∀ n, (f n).rst = false ∧ (f n).stop = false

/-- A line of a program in the stream notation (R90). -/
inductive StreamEvent where
  | accept
  | chunk (d : Bytes)
  | fin
  | rerr
  | xrsp (r : Bytes)
  | xfail
  | terr
  | stop
  | reset
deriving DecidableEq, Repr

/-- The pins while no line is offered: the TU takes every request and egress every byte (R90, 95_test_vectors.md conventions). -/
def quietPins : Pins := { xqReady := true, tx := .accept }

/-- The pins that offer one line. -/
def linePins : StreamEvent → Pins
  | .accept => { quietPins with acc := true }
  | .chunk d => { quietPins with rx := some (.chunk d) }
  | .fin => { quietPins with rx := some .fin }
  | .rerr => { quietPins with rx := some .rerr }
  | .xrsp r => { quietPins with xr := some (.ok r) }
  | .xfail => { quietPins with xr := some .fail }
  | .terr => { quietPins with tx := .err }
  | .stop => { quietPins with stop := true }
  | .reset => { quietPins with rst := true }

/-- Whether FR takes the line when it is offered (R5, R6 to R9); the host's two inputs are always taken, if only to be ignored (R194). -/
def lineTaken (s : State) : StreamEvent → Bool
  | .accept => accReady s
  | .chunk _ => rxReady s
  | .fin => rxReady s
  | .rerr => rxReady s
  | .xrsp _ => xrReady s
  | .xfail => xrReady s
  | .terr => (txOffer s).isSome
  | .stop => true
  | .reset => true

/-- DEDUCED (log entry 7), safe. Whether FR first takes a step of its own: draining, tearing down, and writing a response
unless the line is `TERR`. The programs of 95_test_vectors.md apply a line where FR waits for one. -/
def runsOn (s : State) (e : StreamEvent) : Bool :=
  s.cs == .closed || (s.cs == .conn && (s.seq == .drain || (s.seq == .tx && e != .terr)))

/-- One step of a program (R90): FR's own step, or the next line where FR is ready for it; a line FR is not ready for stays. -/
def streamStep (es : List StreamEvent) (s : State) :
    List StreamEvent × Host.Outcome State Fault Refusal :=
  match es with
  | [] => ([], driveStep quietPins s)
  | e :: rest =>
    if runsOn s e || !lineTaken s e then (e :: rest, driveStep quietPins s)
    else (rest, driveStep (linePins e) s)

end Sys2Proof.Machine
end

