-- ==== Sys2Proof/Machine/System.lean ====
section
/-!
DEFINITION. N_CONN instances of FR side by side (R201; DESIGN CHOICE, safe, log entry 15): each has all the state of an instance and shares none; `rst` and `stop`
reach every instance; which instance moves next, and which takes an accept, is a draw, held in the script.
-/

namespace Sys2Proof.Machine

/-- One move of the system. -/
inductive SysMove where
  /-- Instance `i` takes one step on these pins; its host pins are not its own (R201) and are ignored. -/
  | inst (i : Nat) (p : Pins)
  /-- The host asserts `rst` or `stop`, at every instance at once. -/
  | host (rst stop : Bool)
deriving DecidableEq, Repr

/-- The instances, numbered from 0, and the draws to come. -/
structure System where
  /-- The instances; their number is N_CONN (R12). -/
  insts : List State
  /-- The moves to come. -/
  script : List SysMove
deriving DecidableEq, Repr

/-- N_CONN instances after reset, all with the same parameters (R12). -/
def System.reset (nConn : Nat) (par : Params := {}) : System :=
  { insts := List.replicate nConn { State.reset with par := par }, script := [] }

/-- What `rst` and `stop` do to one instance (R196, R220, R194). -/
def hostAct (rst stop : Bool) (s : State) : State :=
  if rst then takeReset s else if stop && stopOpen s then takeStop s else s

/-- One move of the system. A move of an instance that is not there has no step. -/
def systemStep (y : System) : Host.Outcome System Fault Refusal :=
  match y.script with
  | [] => .next y
  | .host rst stop :: ms => .next { insts := y.insts.map (hostAct rst stop), script := ms }
  | .inst i p :: ms =>
    match y.insts[i]? with
    | none => .next { y with script := ms }
    | some s =>
      match driveStep { p with rst := false, stop := false } s with
      | .next t => .next { insts := y.insts.set i t, script := ms }
      | .fault e => .fault e
      | .refused r => .refused r

end Sys2Proof.Machine
end

