-- ==== Sys2Proof/Machine/Transform.lean ====
section
/-!
DEFINITION. The transform unit's contract (R110 to R115, R117): which answers it may give to a request. The unit is outside
FR (R3); FR takes any answer (R163), and a claim about what a response holds takes the contract as a premise.
DESIGN CHOICE (log entry 14), safe.
The open parameters (R12) are arguments: a claim holds for every choice the spec admits.
-/

namespace Sys2Proof.Machine

/-- PRESUMED (log entry 6), unsafe. The UTF-8 bytes of one Unicode scalar value, as the Unicode standard gives them; the spec names
UTF-8 without spelling it (R110). -/
def utf8Char (c : Char) : Bytes :=
  if c.toNat < 0x80 then [BitVec.ofNat 8 c.toNat]
  else if c.toNat < 0x800 then
    [BitVec.ofNat 8 (0xC0 + c.toNat / 64), BitVec.ofNat 8 (0x80 + c.toNat % 64)]
  else if c.toNat < 0x10000 then
    [BitVec.ofNat 8 (0xE0 + c.toNat / 4096), BitVec.ofNat 8 (0x80 + c.toNat / 64 % 64),
      BitVec.ofNat 8 (0x80 + c.toNat % 64)]
  else
    [BitVec.ofNat 8 (0xF0 + c.toNat / 262144), BitVec.ofNat 8 (0x80 + c.toNat / 4096 % 64),
      BitVec.ofNat 8 (0x80 + c.toNat / 64 % 64), BitVec.ofNat 8 (0x80 + c.toNat % 64)]

/-- `utf8_encode(t)` (R110); a character is one Unicode scalar value. -/
def utf8 (t : List Char) : Bytes := t.flatMap utf8Char

/-- The unit's open parameters (R12). -/
structure TuParams where
  /-- UTF8_REPAIR: the best-effort decode `text(p)` (R110). -/
  repair : Bytes → List Char
  /-- UPPER_MAP; a mapping may turn one character into several (R111). -/
  upperMap : Char → List Char
  /-- LOWER_MAP (R112). -/
  lowerMap : Char → List Char
  /-- RANDOMIZE_EMPTY: the results it may answer for `RANDOMIZE` of an empty text, any set of them (R115, D21). -/
  randomizeEmpty : Bytes → Prop

/-- What every choice of UTF8_REPAIR keeps (R110): a well-formed payload decodes to exactly its scalar values; otherwise bytes are
dropped, never replaced or reordered; every byte below 0x80 is kept as its own character. -/
structure RepairOk (repair : Bytes → List Char) : Prop where
  exact : ∀ t, repair (utf8 t) = t
  drops : ∀ p, (utf8 (repair p)).Sublist p
  ascii : ∀ p, (repair p).filter (fun c => c.toNat < 0x80)
    = (p.filter (fun b => b.toNat < 0x80)).map (fun b => Char.ofNat b.toNat)

/-- The letters the examples pin (R111, R112) and the constraints on the decode (R110). -/
structure TuParams.Ok (tp : TuParams) : Prop where
  repair : RepairOk tp.repair
  upper : tp.upperMap 'a' = ['A'] ∧ tp.upperMap 'b' = ['B'] ∧ tp.upperMap 'c' = ['C'] ∧
    tp.upperMap 'A' = ['A'] ∧ tp.upperMap 'C' = ['C']
  lower : tp.lowerMap 'A' = ['a'] ∧ tp.lowerMap 'b' = ['b'] ∧ tp.lowerMap 'C' = ['c']

/-- `UPPER` (R111). -/
def UpperAnswer (tp : TuParams) (p r : Bytes) : Prop := r = utf8 ((tp.repair p).flatMap tp.upperMap)

/-- `LOWER` (R112). -/
def LowerAnswer (tp : TuParams) (p r : Bytes) : Prop := r = utf8 ((tp.repair p).flatMap tp.lowerMap)

/-- `REVERSE` (R113): the characters reversed, not the bytes. -/
def ReverseAnswer (tp : TuParams) (p r : Bytes) : Prop := r = utf8 (tp.repair p).reverse

/-- `SHUFFLE` (R114): any permutation of the characters. -/
def ShuffleAnswer (tp : TuParams) (p r : Bytes) : Prop := ∃ t, t.Perm (tp.repair p) ∧ r = utf8 t

/-- The texts `RANDOMIZE` admits for a non-empty text (R115): each character repeated, not all zero times; or the first alone. -/
def Mutation (t t' : List Char) : Prop :=
  (∃ ks : List Nat, ks.length = t.length ∧ (∃ k ∈ ks, k ≠ 0) ∧
    t' = (List.zipWith List.replicate ks t).flatten) ∨
  ∃ c, t.head? = some c ∧ t' = [c]

/-- `RANDOMIZE` (R115): for an empty text what RANDOMIZE_EMPTY says. -/
def RandomizeAnswer (tp : TuParams) (p r : Bytes) : Prop :=
  (tp.repair p = [] ∧ tp.randomizeEmpty r) ∨ ∃ t, Mutation (tp.repair p) t ∧ r = utf8 t

/-- The results `XRSP_OK` may carry for the request `XREQ(op, p)`. An opcode that only a table other than the default supports has
no transform the spec names, so no result. -/
def AdmittedResult (tp : TuParams) (op : Nat) (p r : Bytes) : Prop :=
  if op = 1 then UpperAnswer tp p r
  else if op = 2 then LowerAnswer tp p r
  else if op = 4 then ReverseAnswer tp p r
  else if op = 8 then ShuffleAnswer tp p r
  else if op = 16 then RandomizeAnswer tp p r
  else False

/-- The answers the unit may give to the request `XREQ(op, p)`. Only a supported opcode is requested (R9), and for each of them
a failure is admitted (R117). -/
def Admitted (par : Params) (tp : TuParams) (op : Nat) (p : Bytes) (a : TuAnswer) : Prop :=
  classify par op = .supported ∧
    match a with
    | .fail => True
    | .ok r => AdmittedResult tp op p r

end Sys2Proof.Machine
end

