-- ==== Sys2Proof/Safety.lean ====
section
/-!
DEFINITION. What holds of FR in every run, in the terms the statements use: the invariants of the fields, the laws of a
connection's past, and what a conforming environment offers (R11).
-/

namespace Sys2Proof.Machine

/-- The invariants of the fields (R30 to R41). -/
structure State.Inv (s : State) : Prop where
  /-- The widths of the formats agree (R12). -/
  format : s.par.FormatOk
  /-- BUFLEN_BITS suffices (R12). -/
  counterFits : s.par.CounterFits
  /-- RLEN_BITS suffices, for ERROR_TEXT too (R12, R170). -/
  responsesFit : s.par.ResponsesFit
  /-- `|buf| <= BUF_CAP` (R32). -/
  bufBound : s.buf.length ≤ s.par.bufCap
  /-- `buflen = |buf|` (R33). -/
  counter : s.buflen = s.buf.length
  /-- `cur_op` is OP_BITS wide (R34). -/
  opWidth : s.curOp < 2 ^ s.par.opBits
  /-- `cur_len` is LEN_BITS wide (R34). -/
  lenWidth : s.curLen < 2 ^ s.par.lenBits
  /-- A fault code is held exactly in HALTED (R37, R192). -/
  fault : s.faultCode = .none ↔ s.cs ≠ .halted
  /-- While CONN, `txq` is non-empty exactly in TX (R36). -/
  staged : s.cs = .conn → (s.txq ≠ [] ↔ s.seq = .tx)
  /-- `|txq| <= 4 + RLEN_MAX` (R36), the 4 being HDR_BYTES. -/
  stagedBound : s.txq.length ≤ s.par.hdrBytes + s.par.rlenMax
  /-- No bytes of a connection outlive it (R160, R168, R195). -/
  empty : s.cs = .listen ∨ s.cs = .stopped → s.buf = [] ∧ s.curPay = [] ∧ s.txq = []
  /-- In RX no complete frame is left in `buf` (R41). -/
  drained : s.cs = .conn → s.seq = .rx → phase s.par s.buf ≠ .frameReady
  /-- In XF_WAIT the latches describe the outstanding request (R34, R35, R162). -/
  latched : s.cs = .conn → s.seq = .xfWait →
    s.curPay.length = s.curLen ∧ classify s.par s.curOp = .supported
  /-- Outside XF_WAIT the payload latch of a connection is empty (R35). -/
  unlatched : s.cs = .conn → s.seq ≠ .xfWait → s.curPay = []
  /-- STOPPED is entered with a stop taken (R168, R195). -/
  stopped : s.cs = .stopped → s.stopReq = true
  /-- LISTEN is never entered with a stop taken (R168, R195). -/
  listening : s.cs = .listen → s.stopReq = false
  /-- Under IMMEDIATE a stop taken means STOPPED (R38, R195). -/
  immediate : s.par.stopPolicy = .immediate → s.stopReq = true → s.cs = .stopped

/-- R40, with the frames themselves: while CONN, the stream received is the extracted frames' bytes and then `buf`. -/
def BufferLaw (s : State) : Prop :=
  s.cs = .conn → s.buf = (received s.hist).drop (framesLength s.par (extracted s.hist)) ∧
    framesLength s.par (extracted s.hist) ≤ (received s.hist).length

/-- R40 and R75 with the frames' own bytes, in a format whose widths agree: while CONN, every frame extracted is one a header spells,
and the stream received is what spells the frames extracted and then `buf`. -/
def FramingLaw (s : State) : Prop :=
  s.par.FormatOk ∧ (s.cs = .conn →
    (∀ f ∈ extracted s.hist, f.1 < 2 ^ s.par.opBits ∧ f.2.length ≤ s.par.lenMax) ∧
      received s.hist = (extracted s.hist).flatMap (wire s.par) ++ s.buf)

/-- R173: the egress bytes are at all times an initial part of the framed responses; while CONN, `txq` is what is missing. -/
def EgressLaw (s : State) : Prop :=
  egress s.hist <+: framed s.par (responses s.par s.hist) ∧
    (s.cs = .conn → egress s.hist ++ s.txq = framed s.par (responses s.par s.hist))

/-- R71: while CONN, every extracted frame has its one response staged, but for the one whose request is outstanding, which
is the last one extracted. -/
def ResponseLaw (s : State) : Prop :=
  s.cs = .conn →
    (s.seq = .xfWait → (extracted s.hist).length = (responses s.par s.hist).length + 1 ∧
      (extracted s.hist).getLast? = some (s.curOp, s.curPay)) ∧
    (s.seq ≠ .xfWait → (extracted s.hist).length = (responses s.par s.hist).length)

/-- R70, R143, R162: the requests are the supported frames among those extracted, in the same order. -/
def RequestLaw (s : State) : Prop :=
  requested s.hist = (extracted s.hist).filter fun f => classify s.par f.1 == .supported

/-- The fields that are FR's own storage (R30 to R38, R42) agree. -/
def SameFr (s t : State) : Prop :=
  s.cs = t.cs ∧ s.seq = t.seq ∧ s.buf = t.buf ∧ s.buflen = t.buflen ∧ s.curOp = t.curOp ∧
    s.curLen = t.curLen ∧ s.curPay = t.curPay ∧ s.txq = t.txq ∧ s.faultCode = t.faultCode ∧
    s.stopReq = t.stopReq

/-- An outcome without the inputs to come: what a step does to FR, the parameters and the history. -/
def blind : Host.Outcome State Fault Refusal → Host.Outcome State Fault Refusal
  | .next t => .next { t with env := [] }
  | .fault e => .fault e
  | .refused r => .refused r

/-- The record of a later step; past the end nothing is offered or asserted. -/
def recordAt (ps : List Pins) (k : Nat) : Pins := ps[k]?.getD {}

/-- The ingress transfers of a list of records, in order. -/
def rxOffers (ps : List Pins) : List RxOffer := ps.filterMap fun p => p.rx

/-- The answers of a list of records, in order. -/
def xrOffers (ps : List Pins) : List TuAnswer := ps.filterMap fun p => p.xr

/-- The accepts of a list of records. -/
def accOffers (ps : List Pins) : Nat := ps.countP fun p => p.acc

/-- R11, the transport's ingress row: a chunk it offers has 1 to CHUNK_MAX bytes. -/
def Pins.ChunkOk (p : Pins) (chunkMax : Nat) : Prop :=
  ∀ d, p.rx = some (.chunk d) → 1 ≤ d.length ∧ d.length ≤ chunkMax

/-- What a conforming environment newly offers in the record `p` (R11, last column, and R5): an accept only in LISTEN, chunks of a
legal size, an answer only to the outstanding request and within the TU's contract, egress reactions only to an offered byte; and a
producer whose earlier offer stands, at the head of `s.env`, waits. -/
structure Pins.Conforming (tp : TuParams) (s : State) (p : Pins) : Prop where
  accept : p.acc = true → accReady s = true
  chunk : p.ChunkOk s.par.chunkMax
  answer : ∀ a, p.xr = some a → xrReady s = true ∧ Admitted s.par tp s.curOp s.curPay a
  egress : p.tx ≠ .hold → (txOffer s).isSome = true
  waits : (s.pins.acc = true → p.acc = false) ∧ (s.pins.rx ≠ none → p.rx = none) ∧ (s.pins.xr ≠ none → p.xr = none)

/-- A run whose environment conforms in every step (R11). -/
def ConformingRun (tp : TuParams) (f : Nat → Pins) (s : State) : Prop :=
  ∀ n t, drive f n s = .next t → (f n).Conforming tp t

/-! The buffer as (offset, byte) cells (R60). DESIGN CHOICE (log entry 4), safe. -/

/-- An address and its byte for every offset of `buf` from `off` on. -/
def cellsFrom : Nat → Bytes → List Host.Cell
  | _, [] => []
  | off, b :: bs => (off, b) :: cellsFrom (off + 1) bs

/-- The memory of an instance as cells; an offset that is not listed does not exist. -/
def State.cells (s : State) : List Host.Cell := cellsFrom 0 s.buf

/-- The canonical form of a list of cells: addresses strictly rising. -/
abbrev Memory.wf (m : List Host.Cell) : Prop := m.Pairwise fun a b => a.1 < b.1

end Sys2Proof.Machine
end

