-- ==== Sys2Proof/Certificates/Slice0/Obligations.lean ====
section
/-!
DEFINITION. The statements for the provers. Each docstring names the rule of spec/ the statement formalises, or says what it
rests on where no rule states it whole. Next states are written out field by field, not through the operations that compute them.
-/

open Sys2Proof Sys2Proof.Machine

/-! Header codec, encoding, classification. -/

/-- R100: `op = H >> 27` and `len = H & 0x07FFFFFF`, for every header, with the corner cases; and with other field widths (R12, log entry 20) the
header's bits above and below LEN_BITS.
What it says of other parameters is the model's reading (log entry 20, DEDUCED). -/
def Obligations.DecodeHeaderSplitsFields : Prop :=
  (∀ (par : Params) (h : Nat), h < 2 ^ (par.opBits + par.lenBits) →
    decodeHeader par h = (h >>> par.lenBits, h &&& (2 ^ par.lenBits - 1))) ∧
  (∀ h : Nat, h < 2 ^ 32 → decodeHeader {} h = (h >>> 27, h &&& 0x07FFFFFF)) ∧
    decodeHeader {} 0 = (0, 0) ∧ decodeHeader {} 0xFFFFFFFF = (31, 134217727) ∧ decodeHeader {} 0x08000003 = (1, 3)

/-- R101, R63: the header is the first four bytes, the first one the most significant; fewer than four are refused. With another
HDR_BYTES (R12, log entry 20) it is that many bytes, alike.
What it says of other parameters is the model's reading (log entry 20, DEDUCED). -/
def Obligations.HeadAtIsBigEndian : Prop :=
  (∀ b0 b1 b2 b3 : Byte, ∀ t : Bytes, headAt {} (b0 :: b1 :: b2 :: b3 :: t)
    = some (b0.toNat * 2 ^ 24 + b1.toNat * 2 ^ 16 + b2.toNat * 2 ^ 8 + b3.toNat)) ∧
  (∀ bs : Bytes, bs.length < 4 → headAt {} bs = none) ∧
  (∀ (par : Params) (bs : Bytes), bs.length < par.hdrBytes → headAt par bs = none) ∧
  ∀ (par : Params) (bs : Bytes), par.hdrBytes ≤ bs.length → headAt par bs
    = some (∑ k ∈ Finset.range par.hdrBytes, (bs.getD k 0).toNat * 256 ^ (par.hdrBytes - 1 - k))

/-- R102: within range the header is `(op << 27) | len`, nothing lost in 32 bits; out of range it is refused, never masked. The same
with other field widths (R12, log entry 20).
What it says of other parameters is the model's reading (log entry 20, DEDUCED). -/
def Obligations.EncodeHeaderRefusesOutOfRange : Prop :=
  (∀ op len : Nat, op < 32 → len < 2 ^ 27 →
    encodeHeader {} op len = some ((op <<< 27) ||| len) ∧ (op <<< 27) ||| len < 2 ^ 32) ∧
  (∀ op len : Nat, ¬ (op < 32 ∧ len < 2 ^ 27) → encodeHeader {} op len = none) ∧
  (∀ (par : Params) (op len : Nat), op < 2 ^ par.opBits → len < 2 ^ par.lenBits →
    encodeHeader par op len = some ((op <<< par.lenBits) ||| len) ∧
      (op <<< par.lenBits) ||| len < 2 ^ (par.opBits + par.lenBits)) ∧
  ∀ (par : Params) (op len : Nat), ¬ (op < 2 ^ par.opBits ∧ len < 2 ^ par.lenBits) → encodeHeader par op len = none

/-- R103, which the spec derives from R100 and R102: both directions of the round trip, by default and with other field widths (R12, log entry 20). -/
def Obligations.HeaderRoundTrip : Prop :=
  (∀ op len : Nat, op < 32 → len < 2 ^ 27 →
    ∃ h, encodeHeader {} op len = some h ∧ decodeHeader {} h = (op, len)) ∧
  (∀ h : Nat, h < 2 ^ 32 → encodeHeader {} (decodeHeader {} h).1 (decodeHeader {} h).2 = some h) ∧
  (∀ (par : Params) (op len : Nat), op < 2 ^ par.opBits → len < 2 ^ par.lenBits →
    ∃ h, encodeHeader par op len = some h ∧ decodeHeader par h = (op, len)) ∧
  ∀ (par : Params) (h : Nat), h < 2 ^ (par.opBits + par.lenBits) →
    encodeHeader par (decodeHeader par h).1 (decodeHeader par h).2 = some h

/-- R15 and R64: the response length's bytes, most significant first, read back as the value, and the other way round; with another
HDR_BYTES alike. -/
def Obligations.BigEndianBytesRoundTrip : Prop :=
  (∀ v : Nat, v < 2 ^ 32 → headAt {} (beBytes 4 v) = some v ∧
    (beBytes 4 v).map BitVec.toNat = [v / 2 ^ 24, v / 2 ^ 16 % 256, v / 2 ^ 8 % 256, v % 256]) ∧
  (∀ b0 b1 b2 b3 : Byte,
    beBytes 4 (b0.toNat * 2 ^ 24 + b1.toNat * 2 ^ 16 + b2.toNat * 2 ^ 8 + b3.toNat) = [b0, b1, b2, b3]) ∧
  (∀ (par : Params) (v : Nat), v < 2 ^ (8 * par.hdrBytes) → headAt par (beBytes par.hdrBytes v) = some v) ∧
  ∀ (par : Params) (bs : Bytes) (v : Nat), bs.length = par.hdrBytes → headAt par bs = some v → beBytes par.hdrBytes v = bs

/-- Encoder and decoder agree in every format on every frame a header can spell, of all 32 opcodes, every payload, whatever bytes
follow. -/
def Obligations.DecodeOfEncode : Prop :=
  ∀ (par : Params) (i : Instr) (more : Bytes), par.FormatOk → i.WellFormed par →
    ∃ bs, encode par i = some bs ∧ bs.length = par.hdrBytes + i.payload.length ∧ decode par (bs ++ more) = .ok (i, more)

/-- The other direction (R86): whatever bytes decode to a frame are that frame's encoding and then the rest. -/
def Obligations.EncodeOfDecode : Prop :=
  ∀ (par : Params) (bs more : Bytes) (i : Instr), par.FormatOk → decode par bs = .ok (i, more) →
    i.WellFormed par ∧ ∃ w, encode par i = some w ∧ bs = w ++ more

/-- Words written out from R81 and R85, one or more of each family. -/
def Obligations.SpecWordsDecode : Prop :=
  decode {} [0x08, 0x00, 0x00, 0x03, 0x61, 0x62, 0x63] = .ok (.upper [0x61, 0x62, 0x63], []) ∧
  decode {} [0x10, 0x00, 0x00, 0x03, 0x41, 0x62, 0x43] = .ok (.lower [0x41, 0x62, 0x43], []) ∧
  decode {} [0x20, 0x00, 0x00, 0x00, 0x08] = .ok (.reverse [], [0x08]) ∧
  decode {} [0x80, 0x00, 0x00, 0x01, 0x61] = .ok (.randomize [0x61], []) ∧
  decode {} [0xF8, 0x00, 0x00, 0x01, 0x78] = .ok (.unsupOp31 [0x78], []) ∧
  decode {} [0x08, 0x00, 0x00, 0x03, 0x61] = .error .awaitingPayload ∧
  decode {} [0x08, 0x00, 0x00] = .error .awaitingHeader

/-- R104: with any table every opcode is supported or unsupported, and supported exactly when the table VALID_OPS holds it; with
the default table these are the five, and the corner cases are as R104 gives them. -/
def Obligations.ClassifyIsByTheTable : Prop :=
  (∀ (par : Params) (op : Nat), (classify par op = .supported ↔ op ∈ par.validOps) ∧
    (classify par op = .unsupported ↔ op ∉ par.validOps)) ∧
  (∀ op : Nat, op ∈ ({} : Params).validOps ↔ op = 1 ∨ op = 2 ∨ op = 4 ∨ op = 8 ∨ op = 16) ∧
  classify {} 0 = .unsupported ∧ classify {} 31 = .unsupported ∧ classify {} 16 = .supported ∧
    classify {} 17 = .unsupported

/-- R39: the three phases, by the length of the buffer and the length its header declares; in another format (R12, log entry 20) alike.
What it says of other parameters is the model's reading (log entry 20, DEDUCED). -/
def Obligations.PhaseByLength : Prop :=
  (∀ bs : Bytes, bs.length < 4 → phase {} bs = .awaitingHeader) ∧
  (∀ (b0 b1 b2 b3 : Byte) (t : Bytes),
    let len := (b0.toNat * 2 ^ 24 + b1.toNat * 2 ^ 16 + b2.toNat * 2 ^ 8 + b3.toNat) % 2 ^ 27
    phase {} (b0 :: b1 :: b2 :: b3 :: t) = if 4 + t.length < 4 + len then .awaitingPayload else .frameReady) ∧
  (∀ (par : Params) (bs : Bytes), phase par bs = .awaitingHeader ↔ bs.length < par.hdrBytes) ∧
  ∀ (par : Params) (bs : Bytes) (h : Nat), headAt par bs = some h →
    (phase par bs = .awaitingPayload ↔ bs.length < par.hdrBytes + h % 2 ^ par.lenBits)

/-! The opcodes. -/

/-- R162 at every opcode VALID_OPS holds (R111 to R115: `XREQ(op, p)`): when the TU takes the request, the frame is dropped, its
header and payload latched, the request emitted with the payload's bytes, and FR waits in XF_WAIT; nothing else changes. While the
TU takes none, nothing of FR changes: the frame stays. By the default table these are the five constructors listed. -/
def Obligations.SupportedFrameIsRequested : Prop :=
  (∀ (i : Instr) (s : State), i.op ∈ s.par.validOps → s.pins.xqReady = true →
    exec i s = .next { s with
      buf := s.buf.drop (s.par.hdrBytes + i.payload.length)
      buflen := (s.buflen + 2 ^ s.par.buflenBits - (s.par.hdrBytes + i.payload.length) % 2 ^ s.par.buflenBits) % 2 ^ s.par.buflenBits
      curOp := i.op, curLen := i.payload.length, curPay := i.payload, seq := .xfWait
      hist := .xreq i.op i.payload :: .extracted i.op i.payload :: s.hist, env := s.env.tail }) ∧
  (∀ (i : Instr) (s : State), i.op ∈ s.par.validOps → s.pins.xqReady = false →
    exec i s = .next { s with env := s.env.tail }) ∧
  ∀ (p : Bytes) (i : Instr) (op : Nat),
    (i, op) ∈ [(Instr.upper p, 1), (.lower p, 2), (.reverse p, 4), (.shuffle p, 8), (.randomize p, 16)] →
    i.op = op ∧ i.payload = p ∧ op ∈ ({} : Params).validOps

/-- R116 and R161 at every opcode VALID_OPS does not hold: the frame is consumed whole, the framed ERROR_TEXT is staged whatever the
opcode and the payload, no request is made, the connection stays open and no fault is raised. By the default table these are
the 27 constructors listed, and the bytes staged are the nine of R161.
What it says of other parameters is the model's reading (log entry 20, DEDUCED). -/
def Obligations.UnsupportedFrameStagesError : Prop :=
  (∀ (i : Instr) (s : State), i.op ∉ s.par.validOps →
    exec i s = .next { s with
      buf := s.buf.drop (s.par.hdrBytes + i.payload.length)
      buflen := (s.buflen + 2 ^ s.par.buflenBits - (s.par.hdrBytes + i.payload.length) % 2 ^ s.par.buflenBits) % 2 ^ s.par.buflenBits
      curOp := i.op, curLen := i.payload.length, curPay := []
      txq := beBytes s.par.hdrBytes (s.par.errorText.length % 2 ^ s.par.rlenBits) ++ s.par.errorText, seq := .tx
      hist := .extracted i.op i.payload :: s.hist, env := s.env.tail }) ∧
  beBytes ({} : Params).hdrBytes (({} : Params).errorText.length % 2 ^ ({} : Params).rlenBits) ++ ({} : Params).errorText
    = [0x00, 0x00, 0x00, 0x05, 0x65, 0x72, 0x72, 0x6F, 0x72] ∧
  ∀ (p : Bytes) (i : Instr) (op : Nat),
    (i, op) ∈ [(Instr.unsupOp0 p, 0), (.unsupOp3 p, 3), (.unsupOp5 p, 5), (.unsupOp6 p, 6), (.unsupOp7 p, 7),
      (.unsupOp9 p, 9), (.unsupOp10 p, 10), (.unsupOp11 p, 11), (.unsupOp12 p, 12), (.unsupOp13 p, 13),
      (.unsupOp14 p, 14), (.unsupOp15 p, 15), (.unsupOp17 p, 17), (.unsupOp18 p, 18), (.unsupOp19 p, 19),
      (.unsupOp20 p, 20), (.unsupOp21 p, 21), (.unsupOp22 p, 22), (.unsupOp23 p, 23), (.unsupOp24 p, 24),
      (.unsupOp25 p, 25), (.unsupOp26 p, 26), (.unsupOp27 p, 27), (.unsupOp28 p, 28), (.unsupOp29 p, 29),
      (.unsupOp30 p, 30), (.unsupOp31 p, 31)] →
    i.op = op ∧ i.payload = p ∧ op ∉ ({} : Params).validOps

/-- The frame of every opcode: what running it leaves alone, with every byte of memory. A frame that is taken moves the byte at
offset `a + 4 + |p|` (the 4 being HDR_BYTES) to offset `a` and touches no other; one that waits for the TU moves none. -/
def Obligations.FrameRunLeavesTheRest : Prop :=
  ∀ (i : Instr) (s t : State), exec i s = .next t →
    t.par = s.par ∧ t.cs = s.cs ∧ t.faultCode = s.faultCode ∧ t.stopReq = s.stopReq ∧ t.env = s.env.tail ∧
    (i.op ∈ s.par.validOps → t.txq = s.txq) ∧
    (i.op ∉ s.par.validOps ∨ s.pins.xqReady = true →
      ∀ a, memByte t a = memByte s (a + (s.par.hdrBytes + i.payload.length))) ∧
    (i.op ∈ s.par.validOps → s.pins.xqReady = false →
      (∀ a, memByte t a = memByte s a) ∧ t.buflen = s.buflen ∧ t.curOp = s.curOp ∧ t.curLen = s.curLen ∧
        t.curPay = s.curPay ∧ t.seq = s.seq ∧ t.hist = s.hist)

/-- A step at (CONN, DRAIN) that neither reset nor stop takes runs the frame decoded from the head of `buf`, on the state in which
this step's untaken offers wait (R5); that state is `s` but for the records after this step's. -/
def Obligations.StepRunsTheDecodedFrame : Prop :=
  (∀ (s : State) (i : Instr) (more : Bytes), pointEnabled s = true → s.cs = .conn → s.seq = .drain →
    decode s.par s.buf = .ok (i, more) → step s = exec i s.hold) ∧
  ∀ s : State, s.hold = { s with env := s.pins :: nextEnv s }

/-! The drain step. -/

/-- R142 with R143, R161 and R162: without a complete frame FR goes back to RX, `buf` as it is; with one, the header and the
payload are read, the frame dropped and latched, and `classify` chooses between the error response and the request.
What it says of other parameters is the model's reading (log entry 20, DEDUCED). -/
def Obligations.DrainSlicesTheHeadFrame : Prop :=
  ∀ s : State, pointEnabled s = true → s.cs = .conn → s.seq = .drain →
    (phase s.par s.buf ≠ .frameReady → step s = .next { s with seq := .rx, env := nextEnv s }) ∧
    (phase s.par s.buf = .frameReady → ∃ h op len pay, headAt s.par s.buf = some h ∧ decodeHeader s.par h = (op, len) ∧
      memRead s s.par.hdrBytes len = some pay ∧
      (classify s.par op = .unsupported → step s = .next { s with
        buf := s.buf.drop (s.par.hdrBytes + len)
        buflen := (s.buflen + 2 ^ s.par.buflenBits - (s.par.hdrBytes + len) % 2 ^ s.par.buflenBits) % 2 ^ s.par.buflenBits
        curOp := op, curLen := len, curPay := []
        txq := beBytes s.par.hdrBytes (s.par.errorText.length % 2 ^ s.par.rlenBits) ++ s.par.errorText, seq := .tx
        hist := .extracted op pay :: s.hist, env := nextEnv s }) ∧
      (classify s.par op = .supported → s.pins.xqReady = true → step s = .next { s with
        buf := s.buf.drop (s.par.hdrBytes + len)
        buflen := (s.buflen + 2 ^ s.par.buflenBits - (s.par.hdrBytes + len) % 2 ^ s.par.buflenBits) % 2 ^ s.par.buflenBits
        curOp := op, curLen := len, curPay := pay, seq := .xfWait
        hist := .xreq op pay :: .extracted op pay :: s.hist, env := nextEnv s }) ∧
      (classify s.par op = .supported → s.pins.xqReady = false →
        ∀ t, step s = .next t → SameFr s t ∧ t.hist = s.hist))

/-! The other steps of the sequencer. -/

/-- R160: an `ACCEPT` in LISTEN opens a connection with empty buffers and one `evt_open`; in any other state it has no effect
on the step. -/
def Obligations.AcceptOpensAConnection : Prop :=
  (∀ s : State, pointEnabled s = true → s.cs = .listen → s.pins.acc = true →
    step s = .next { s with
      cs := .conn, seq := .rx, buf := [], buflen := 0, curPay := [], txq := []
      hist := .evtOpen :: .accepted :: s.hist, env := nextEnv s }) ∧
  ∀ (s : State) (p : Pins) (more : List Pins), s.env = p :: more → s.cs ≠ .listen →
    blind (step s) = blind (step { s with env := { p with acc := false } :: more })

/-- R141: a chunk of 1 to CHUNK_MAX bytes at (CONN, RX) is appended and drained next, or faults, `buf` unchanged, when it would
not fit BUF_CAP; at any other point it has no effect on the step.
That the counter counts modulo its width is the model's reading (log entries 11 and 20, DEDUCED). -/
def Obligations.FeedAppendsOrFaults : Prop :=
  (∀ (s : State) (d : Bytes), pointEnabled s = true → s.cs = .conn → s.seq = .rx → s.pins.rx = some (.chunk d) →
    1 ≤ d.length → d.length ≤ s.par.chunkMax →
    step s = .next (if s.buf.length + d.length > s.par.bufCap then
      { s with cs := .halted, faultCode := .bufOverflow, env := nextEnv s }
    else
      { s with
        buf := s.buf ++ d, buflen := (s.buflen + d.length) % 2 ^ s.par.buflenBits, seq := .drain
        hist := .chunk d :: s.hist, env := nextEnv s })) ∧
  ∀ (s : State) (p : Pins) (more : List Pins), s.env = p :: more → ¬ (s.cs = .conn ∧ s.seq = .rx) →
    blind (step s) = blind (step { s with env := { p with rx := none } :: more })

/-- R7 and R11: a chunk of no byte or of more than CHUNK_MAX is never offered; the model refuses the step by name (log entry 8),
and at a point that takes no ingress it does not even look at it. -/
def Obligations.NonconformingChunkIsRefused : Prop :=
  ∀ (s : State) (d : Bytes), pointEnabled s = true → s.pins.rx = some (.chunk d) →
    (d.length = 0 ∨ s.par.chunkMax < d.length) →
    (step s = .refused .nonconformingChunk ↔ rxReady s = true)

/-- R163: the TU's result is framed and written next, or faults when it is longer than RLEN_MAX; only at (CONN, XF_WAIT).
What it says of other parameters is the model's reading (log entry 20, DEDUCED). -/
def Obligations.TransformResultIsFramed : Prop :=
  (∀ (s : State) (r : Bytes), pointEnabled s = true → s.cs = .conn → s.seq = .xfWait → s.pins.xr = some (.ok r) →
    step s = .next (if r.length > s.par.rlenMax then
      { s with cs := .halted, faultCode := .rspTooLong, env := nextEnv s }
    else
      { s with
        txq := beBytes s.par.hdrBytes (r.length % 2 ^ s.par.rlenBits) ++ r, curPay := [], seq := .tx
        hist := .xrspOk r :: s.hist, env := nextEnv s })) ∧
  ∀ (s : State) (p : Pins) (more : List Pins), s.env = p :: more → ¬ (s.cs = .conn ∧ s.seq = .xfWait) →
    blind (step s) = blind (step { s with env := { p with xr := none } :: more })

/-- R165: a failed transform closes the connection with no response for its frame; only at (CONN, XF_WAIT). -/
def Obligations.TransformFailureCloses : Prop :=
  (∀ s : State, pointEnabled s = true → s.cs = .conn → s.seq = .xfWait → s.pins.xr = some .fail →
    step s = .next { s with cs := .closed, hist := .xrspFail :: s.hist, env := nextEnv s }) ∧
  ∀ (s : State) (p : Pins) (more : List Pins), s.env = p :: more → ¬ (s.cs = .conn ∧ s.seq = .xfWait) →
    p.xr = some .fail → blind (step s) = blind (step { s with env := { p with xr := none } :: more })

/-- R164: an accepted byte is the head of `txq`; the last one leads back to DRAIN. Only then: at any other point the consumer's
readiness has no effect on the step, and in a step in which the consumer accepts nothing no byte leaves. -/
def Obligations.WriteMovesOneByte : Prop :=
  (∀ (s : State) (b : Byte) (r : Bytes), pointEnabled s = true → s.cs = .conn → s.seq = .tx → s.txq = b :: r →
    s.pins.tx = .accept →
    step s = .next { s with
      txq := r, seq := if r = [] then .drain else .tx, hist := .txByte b :: s.hist, env := nextEnv s }) ∧
  (∀ (s : State) (p : Pins) (more : List Pins), s.env = p :: more → ¬ (s.cs = .conn ∧ s.seq = .tx) →
    p.tx = .accept → step s = step { s with env := { p with tx := .hold } :: more }) ∧
  ∀ s t : State, step s = .next t → s.pins.tx ≠ .accept →
    ∃ new, t.hist = new ++ s.hist ∧ ∀ b, .txByte b ∉ new

/-- R169: a write error closes the connection; the bytes not yet sent stay until the teardown. It answers an offered byte only. -/
def Obligations.WriteErrorCloses : Prop :=
  (∀ s : State, pointEnabled s = true → s.cs = .conn → s.seq = .tx → s.txq ≠ [] → s.pins.tx = .err →
    step s = .next { s with cs := .closed, hist := .txErr :: s.hist, env := nextEnv s }) ∧
  ∀ (s : State) (p : Pins) (more : List Pins), s.env = p :: more → ¬ (s.cs = .conn ∧ s.seq = .tx) →
    step s = step { s with env := { p with tx := .hold } :: more }

/-- R166 and R167: the end of the stream and a read error close the connection alike, whatever is buffered; only at (CONN, RX). -/
def Obligations.PeerCloseCloses : Prop :=
  (∀ s : State, pointEnabled s = true → s.cs = .conn → s.seq = .rx → s.pins.rx = some .fin →
    step s = .next { s with cs := .closed, hist := .fin :: s.hist, env := nextEnv s }) ∧
  (∀ s : State, pointEnabled s = true → s.cs = .conn → s.seq = .rx → s.pins.rx = some .rerr →
    step s = .next { s with cs := .closed, hist := .rerr :: s.hist, env := nextEnv s }) ∧
  ∀ (s : State) (p : Pins) (more : List Pins), s.env = p :: more → ¬ (s.cs = .conn ∧ s.seq = .rx) →
    blind (step s) = blind (step { s with env := { p with rx := none } :: more })

/-- R168: teardown needs no input, empties the buffers, reports the closure, and goes to LISTEN, or to STOPPED with `evt_stop`
when a stop was seen. -/
def Obligations.TeardownReturnsToListen : Prop :=
  ∀ s : State, pointEnabled s = true → s.cs = .closed →
    step s = .next (if s.stopReq = true then
      { s with
        buf := [], buflen := 0, curPay := [], txq := [], cs := .stopped
        hist := .evtStop :: .evtClose :: s.hist, env := nextEnv s }
    else
      { s with
        buf := [], buflen := 0, curPay := [], txq := [], cs := .listen
        hist := .evtClose :: s.hist, env := nextEnv s })

/-- R170: the response is the byte count, big-endian in four bytes, and then the bytes; up to RLEN_MAX the count is exact. With
another HDR_BYTES and RLEN_MAX (R12, log entry 20) alike.
What it says of other parameters is the model's reading (log entry 20, DEDUCED). -/
def Obligations.FrameIsLengthThenBytes : Prop :=
  (∀ r : Bytes, r.length ≤ 4294967295 → frame {} r = BitVec.ofNat 8 (r.length / 2 ^ 24) :: BitVec.ofNat 8 (r.length / 2 ^ 16) ::
    BitVec.ofNat 8 (r.length / 2 ^ 8) :: BitVec.ofNat 8 r.length :: r) ∧
  ∀ (par : Params) (r : Bytes), par.FormatOk → par.ResponsesFit → r.length ≤ par.rlenMax →
    headAt par (frame par r) = some r.length ∧ (frame par r).drop par.hdrBytes = r ∧
      (frame par r).length = par.hdrBytes + r.length

/-! Reset, stop, faults. -/

/-- The values R30 to R38 state for reset, and the output levels they show (R45). -/
def Obligations.ResetState : Prop :=
  State.reset.cs = .listen ∧ State.reset.seq = .rx ∧ State.reset.buf = [] ∧ State.reset.buflen = 0 ∧
    State.reset.curOp = 0 ∧ State.reset.curLen = 0 ∧ State.reset.curPay = [] ∧ State.reset.txq = [] ∧
    State.reset.faultCode = .none ∧ State.reset.stopReq = false ∧
    statusCs State.reset = 0 ∧ faultLevel State.reset = 0

/-- R220: from every state, HALTED and STOPPED among them, and whatever else is asserted, `rst` writes the reset values, keeps the
parameters and emits no event; and without it no step leaves HALTED or STOPPED. -/
def Obligations.ResetStepWritesResetValues : Prop :=
  (∀ s : State, s.pins.rst = true →
    step s = .next {
      par := s.par, cs := .listen, seq := .rx, buf := [], buflen := 0, curOp := 0, curLen := 0, curPay := []
      txq := [], faultCode := .none, stopReq := false, env := nextEnv s, hist := s.hist }) ∧
  ∀ s t : State, s.cs = .halted ∨ s.cs = .stopped → s.pins.rst = false → step s = .next t → t.cs = s.cs

/-- R195: a stop abandons the connection or lets it run on, by STOP_POLICY; and nothing but reset leaves STOPPED, whatever is
offered. -/
def Obligations.StopActsByPolicy : Prop :=
  (∀ s : State, s.pins.rst = false → s.pins.stop = true → s.stopReq = false →
    s.cs = .listen ∨ s.cs = .conn ∨ s.cs = .closed →
    step s = .next (if s.cs = .listen ∨ s.par.stopPolicy = .immediate then
      { s with
        stopReq := true, buf := [], buflen := 0, curPay := [], txq := [], cs := .stopped
        hist := .evtStop :: s.hist, env := nextEnv s }
    else
      { s with stopReq := true, env := nextEnv s })) ∧
  ∀ s t : State, s.cs = .stopped → s.pins.rst = false → step s = .next t → SameFr s t ∧ t.hist = s.hist

/-- R194: without reset, `stop_req` after a step is set exactly when it was set before or a stop was asserted in LISTEN, CONN or
CLOSED; in STOPPED and HALTED, and once a stop was taken, the input is ignored: the step is what it is without it. -/
def Obligations.StopIsTakenOnce : Prop :=
  (∀ s t : State, step s = .next t → s.pins.rst = false →
    (t.stopReq = true ↔ s.stopReq = true ∨
      (s.pins.stop = true ∧ (s.cs = .listen ∨ s.cs = .conn ∨ s.cs = .closed)))) ∧
  ∀ (s : State) (p : Pins) (more : List Pins), s.env = p :: more →
    s.stopReq = true ∨ s.cs = .stopped ∨ s.cs = .halted →
    step s = step { s with env := { p with stop := false } :: more }

/-- R193: in HALTED nothing changes without `rst`, whatever is offered, stop included; and `rst` leads to LISTEN with the code
cleared. -/
def Obligations.HaltedOnlyReset : Prop :=
  ∀ s : State, s.cs = .halted →
    (s.pins.rst = false → ∀ t, step s = .next t → SameFr s t ∧ t.hist = s.hist) ∧
    (s.pins.rst = true → ∃ t, step s = .next t ∧ t.cs = .listen ∧ t.faultCode = .none)

/-- R202 and R226: at every point where FR waits, a step that offers nothing it waits for leaves all its state as it is.
That the wait is a step is the model's (log entry 10). -/
def Obligations.WaitsKeepTheState : Prop :=
  ∀ s : State, pointEnabled s = true →
    (s.cs = .listen ∧ s.pins.acc = false) ∨ (s.cs = .conn ∧ s.seq = .rx ∧ s.pins.rx = none) ∨
      (s.cs = .conn ∧ s.seq = .drain ∧ (∃ x, xqOffer s = some x) ∧ s.pins.xqReady = false) ∨
      (s.cs = .conn ∧ s.seq = .xfWait ∧ s.pins.xr = none) ∨
      (s.cs = .conn ∧ s.seq = .tx ∧ s.txq ≠ [] ∧ s.pins.tx = .hold) ∨ s.cs = .stopped ∨ s.cs = .halted →
    step s = .next { s with env := nextEnv s }

/-- R191 and R192: a step enters HALTED exactly by one of the two causes; it then writes the code of that cause and `cs`, nothing
else, emits nothing, and leaves FR ready on no channel. -/
def Obligations.FaultEntryIsPrecise : Prop :=
  ∀ s t : State, step s = .next t → s.cs ≠ .halted →
    (t.cs = .halted ↔ pointEnabled s = true ∧
      ((∃ d, rxReady s = true ∧ s.pins.rx = some (.chunk d) ∧ s.buf.length + d.length > s.par.bufCap) ∨
        ∃ r, xrReady s = true ∧ s.pins.xr = some (.ok r) ∧ r.length > s.par.rlenMax)) ∧
    (t.cs = .halted →
      ((t = { s with cs := .halted, faultCode := .bufOverflow, env := nextEnv s } ∧ rxReady s = true) ∨
        (t = { s with cs := .halted, faultCode := .rspTooLong, env := nextEnv s } ∧ xrReady s = true)) ∧
      accReady t = false ∧ rxReady t = false ∧ xrReady t = false ∧ txOffer t = none ∧ xqOffer t = none)

/-- R45 with R30 and R37: the codes of the two output levels, one code per value. -/
def Obligations.StatusCodes : Prop :=
  ConnState.listen.code = 0 ∧ ConnState.conn.code = 1 ∧ ConnState.closed.code = 2 ∧ ConnState.stopped.code = 3 ∧
    ConnState.halted.code = 4 ∧ FaultCode.none.code = 0 ∧ FaultCode.bufOverflow.code = 1 ∧
    FaultCode.rspTooLong.code = 2 ∧
    (∀ a b : ConnState, a.code = b.code → a = b) ∧ ∀ a b : FaultCode, a.code = b.code → a = b

/-! Whole-machine rules. -/

/-- No step writes a parameter (R45, R220), and the reset state holds the default of each (R12). -/
def Obligations.ParametersNeverChange : Prop :=
  (∀ s t : State, step s = .next t → t.par = s.par) ∧
  State.reset.par.hdrBytes = 4 ∧ State.reset.par.opBits = 5 ∧ State.reset.par.lenBits = 27 ∧
    State.reset.par.lenMax = 134217727 ∧ State.reset.par.rlenBits = 32 ∧ State.reset.par.buflenBits = 28 ∧
    State.reset.par.bufCap = 134218754 ∧ State.reset.par.chunkMax = 1024 ∧ State.reset.par.validOps = [1, 2, 4, 8, 16] ∧
    State.reset.par.errorText = [0x65, 0x72, 0x72, 0x6F, 0x72] ∧ State.reset.par.rlenMax = 4294967295 ∧
    State.reset.par.stopPolicy = .immediate

/-- R174, which the spec derives: where each control point can lead in a step that neither reset nor stop takes. -/
def Obligations.ControlPointEdges : Prop :=
  ∀ s t : State, step s = .next t → pointEnabled s = true →
    (s.cs = .listen → t.cs = .listen ∨ (t.cs = .conn ∧ t.seq = .rx)) ∧
    (s.cs = .conn → s.seq = .rx →
      (t.cs = .conn ∧ (t.seq = .rx ∨ t.seq = .drain)) ∨ t.cs = .closed ∨ t.cs = .halted) ∧
    (s.cs = .conn → s.seq = .drain → t.cs = .conn ∧ (t.seq = .rx ↔ phase s.par s.buf ≠ .frameReady)) ∧
    (s.cs = .conn → s.seq = .xfWait →
      (t.cs = .conn ∧ (t.seq = .xfWait ∨ t.seq = .tx)) ∨ t.cs = .closed ∨ t.cs = .halted) ∧
    (s.cs = .conn → s.seq = .tx → (t.cs = .conn ∧ (t.seq = .tx ∨ t.seq = .drain)) ∨ t.cs = .closed) ∧
    (s.cs = .closed → t.cs = .listen ∨ t.cs = .stopped) ∧
    (s.cs = .stopped → t.cs = .stopped) ∧ (s.cs = .halted → t.cs = .halted)

/-- R67, R68, R75: in one step `buf` is left alone, or a chunk taken at (CONN, RX) is appended, or the complete frame at its
head is dropped, or it is emptied on accept, teardown, stop or reset. No byte is ever rewritten in place. -/
def Obligations.BufferIsNeverRewritten : Prop :=
  ∀ s t : State, step s = .next t →
    t.buf = s.buf ∨
    (∃ d, rxReady s = true ∧ s.pins.rx = some (.chunk d) ∧ t.buf = s.buf ++ d) ∨
    (∃ op p more, s.cs = .conn ∧ s.seq = .drain ∧ headFrame s.par s.buf = .ok (op, p, more) ∧ t.buf = more) ∨
    (t.buf = [] ∧ (s.pins.rst = true ∨ stopTaken s = true ∨ (s.cs = .listen ∧ s.pins.acc = true) ∨ s.cs = .closed))

/-- R5 with R6 to R9: a transfer happens in the step in which one side offers it and the other is ready, and in no other; and the
event pulses of R10 go out exactly at accept, teardown and entry to STOPPED. `new` is what the step adds to the history. -/
def Obligations.TransfersAreHandshakes : Prop :=
  ∀ s t : State, step s = .next t → ∃ new, t.hist = new ++ s.hist ∧
    (.accepted ∈ new ↔ pointEnabled s = true ∧ accReady s = true ∧ s.pins.acc = true) ∧
    (∀ d, .chunk d ∈ new ↔ pointEnabled s = true ∧ rxReady s = true ∧ s.pins.rx = some (.chunk d) ∧
      s.buf.length + d.length ≤ s.par.bufCap) ∧
    (.fin ∈ new ↔ pointEnabled s = true ∧ rxReady s = true ∧ s.pins.rx = some .fin) ∧
    (.rerr ∈ new ↔ pointEnabled s = true ∧ rxReady s = true ∧ s.pins.rx = some .rerr) ∧
    (∀ op p, .xreq op p ∈ new ↔ pointEnabled s = true ∧ xqOffer s = some (op, p) ∧ s.pins.xqReady = true) ∧
    (∀ r, .xrspOk r ∈ new ↔ pointEnabled s = true ∧ xrReady s = true ∧ s.pins.xr = some (.ok r) ∧
      r.length ≤ s.par.rlenMax) ∧
    (.xrspFail ∈ new ↔ pointEnabled s = true ∧ xrReady s = true ∧ s.pins.xr = some .fail) ∧
    (∀ b, .txByte b ∈ new ↔ pointEnabled s = true ∧ txOffer s = some b ∧ s.pins.tx = .accept) ∧
    (.txErr ∈ new ↔ pointEnabled s = true ∧ (txOffer s).isSome = true ∧ s.pins.tx = .err) ∧
    (.evtOpen ∈ new ↔ .accepted ∈ new) ∧
    (.evtClose ∈ new ↔ pointEnabled s = true ∧ s.cs = .closed) ∧
    (.evtStop ∈ new ↔ s.cs ≠ .stopped ∧ t.cs = .stopped)

/-- R5: what is offered on a channel that FR is not ready for does nothing to FR; what is answered to nothing FR offers leaves the
step as it is. -/
def Obligations.UnreadyChannelsAreNotRead : Prop :=
  ∀ (s : State) (p : Pins) (more : List Pins), s.env = p :: more →
    (accReady s = false → ∀ x, blind (step s) = blind (step { s with env := { p with acc := x } :: more })) ∧
    (rxReady s = false → ∀ x, blind (step s) = blind (step { s with env := { p with rx := x } :: more })) ∧
    (xrReady s = false → ∀ x, blind (step s) = blind (step { s with env := { p with xr := x } :: more })) ∧
    (txOffer s = none → ∀ x, step s = step { s with env := { p with tx := x } :: more }) ∧
    (xqOffer s = none → ∀ x, step s = step { s with env := { p with xqReady := x } :: more })

/-- R5: the producer waits, and no channel drops or reorders. The offers of each channel before a step are the one FR takes in it,
if any, and then the offers after it, in the same order; an offer FR does not take stands in the next step. An answer stands so while
its request is outstanding; one that comes while none is has no move and does not stand (R228; log entry 19). What FR itself
offers stands until it is taken. What the host and the consumers do in later steps is not moved. -/
def Obligations.OffersStandUntilTaken : Prop :=
  ∀ s t : State, step s = .next t →
    (accOffers s.env = (if pointEnabled s = true ∧ accReady s = true ∧ s.pins.acc = true then 1 else 0) + accOffers t.env) ∧
    (rxOffers s.env =
      (if pointEnabled s = true ∧ rxReady s = true then s.pins.rx.toList else []) ++ rxOffers t.env) ∧
    (xrReady s = true → xrOffers s.env = (if pointEnabled s = true then s.pins.xr.toList else []) ++ xrOffers t.env) ∧
    (xrReady s = false → xrOffers s.env = s.pins.xr.toList ++ xrOffers t.env ∧ t.pins.xr = (recordAt s.env 1).xr) ∧
    (s.pins.acc = true → ¬ (pointEnabled s = true ∧ accReady s = true) → t.pins.acc = true) ∧
    (∀ o, s.pins.rx = some o → ¬ (pointEnabled s = true ∧ rxReady s = true) → t.pins.rx = some o) ∧
    (∀ a, s.pins.xr = some a → xrReady s = true → pointEnabled s = false → t.pins.xr = some a) ∧
    (pointEnabled s = true → ∀ x, xqOffer s = some x → s.pins.xqReady = false → xqOffer t = some x) ∧
    (pointEnabled s = true → ∀ b, txOffer s = some b → s.pins.tx = .hold → txOffer t = some b) ∧
    ∀ k, (recordAt t.env k).rst = (recordAt s.env (k + 1)).rst ∧ (recordAt t.env k).stop = (recordAt s.env (k + 1)).stop ∧
      (recordAt t.env k).xqReady = (recordAt s.env (k + 1)).xqReady ∧ (recordAt t.env k).tx = (recordAt s.env (k + 1)).tx

/-- The model's history (log entry 3) is never read: with another history the step does the same to everything else and records
the same. -/
def Obligations.HistoryIsNeverRead : Prop :=
  ∀ (s : State) (h : List Event),
    (∀ t, step s = .next t → ∃ t', step { s with hist := h } = .next t' ∧ SameFr t t' ∧ t'.par = t.par ∧
      t'.env = t.env ∧ ∃ new, t.hist = new ++ s.hist ∧ t'.hist = new ++ h) ∧
    (∀ e, step s = .fault e → step { s with hist := h } = .fault e) ∧
    ∀ e, step s = .refused e → step { s with hist := h } = .refused e

/-! Invariants. -/

/-- The reset state has the invariants of the fields. -/
def Obligations.InvAtReset : Prop := State.reset.Inv

/-- Every step from every state that has them keeps the invariants of the fields (R30 to R41): the counter, the bounds, the
staging queue, the latches, the fault code, the stop bit. -/
def Obligations.InvIsKept : Prop :=
  ∀ s t : State, s.Inv → step s = .next t → t.Inv

/-- From a state with the invariants, a step whose chunk has a legal size (R11) always answers a next state: the model's own two stops
are never met. -/
def Obligations.ConformingStepNeverStops : Prop :=
  ∀ s : State, s.Inv → s.pins.ChunkOk s.par.chunkMax → ∃ t, step s = .next t

/-- R41, which the spec derives: with BUF_CAP at least LEN_MAX + 3 + CHUNK_MAX, as the default is, no step enters the overflow
fault; and in RX fewer than LEN_MAX + 4 bytes are buffered (the 4 being HDR_BYTES). -/
def Obligations.DefaultCapacityNeverOverflows : Prop :=
  State.reset.par.Roomy ∧
  (∀ s : State, s.Inv → s.cs = .conn → s.seq = .rx → s.buf.length < s.par.lenMax + s.par.hdrBytes) ∧
  (∀ s : State, s.Inv → s.par = {} → s.cs = .conn → s.seq = .rx → s.buf.length ≤ 134217730) ∧
  ∀ s t : State, s.Inv → s.par.Roomy → s.faultCode ≠ .bufOverflow → step s = .next t → t.faultCode ≠ .bufOverflow

/-- R40: while CONN, `buf` is exactly what was received since the `ACCEPT` without the frames extracted since then. -/
def Obligations.BufferIsTheUnconsumedSuffix : Prop :=
  BufferLaw State.reset ∧ ∀ s t : State, BufferLaw s → step s = .next t → BufferLaw t

/-- The same with the frames' bytes: what was received is what spells the frames extracted, in order, and then `buf` (R40, R70, R75). -/
def Obligations.ReceivedIsFramesThenBuffer : Prop :=
  FramingLaw State.reset ∧ ∀ s t : State, FramingLaw s → step s = .next t → FramingLaw t

/-- R146, which the spec derives from R141 to R144: the frames extracted depend on the stream received and not on how it was cut into
chunks. At (CONN, RX) they are `frames(S)` and `buf` is `rest(S)`; so two connections with the same parameters that received the
same stream have extracted the same frames. -/
def Obligations.ChunkingIndependence : Prop :=
  (∀ s : State, FramingLaw s → s.cs = .conn →
    frames s.par (received s.hist) = extracted s.hist ++ frames s.par s.buf ∧
      rest s.par (received s.hist) = rest s.par s.buf) ∧
  (∀ s : State, FramingLaw s → s.Inv → s.cs = .conn → s.seq = .rx →
    extracted s.hist = frames s.par (received s.hist) ∧ s.buf = rest s.par (received s.hist)) ∧
  ∀ s t : State, FramingLaw s → FramingLaw t → s.Inv → t.Inv → s.cs = .conn → t.cs = .conn → s.seq = .rx → t.seq = .rx →
    s.par = t.par → received s.hist = received t.hist → extracted s.hist = extracted t.hist ∧ s.buf = t.buf

/-- R173, which the spec derives: the egress bytes are an initial part of the framed responses at all times, and while CONN exactly
`txq` is still missing, so none is when the connection is in DRAIN. -/
def Obligations.EgressIsTheFramedResponses : Prop :=
  EgressLaw State.reset ∧
  (∀ s t : State, s.Inv → EgressLaw s → step s = .next t → EgressLaw t) ∧
  ∀ s : State, s.Inv → EgressLaw s → s.cs = .conn → s.seq = .drain → egress s.hist = framed s.par (responses s.par s.hist)

/-- R71: on one connection every extracted frame has its one response staged before the next frame is extracted, but for the one
whose transform is outstanding. -/
def Obligations.OneResponsePerFrame : Prop :=
  ResponseLaw State.reset ∧ ∀ s t : State, ResponseLaw s → step s = .next t → ResponseLaw t

/-- R70 with R162: the TU sees the supported frames in the order of their arrival, each once, and never an unsupported one. -/
def Obligations.RequestsAreTheSupportedFrames : Prop :=
  RequestLaw State.reset ∧ ∀ s t : State, RequestLaw s → step s = .next t → RequestLaw t

/-! Runs. -/

/-- R164 along a response: as many accepting steps as `txq` has bytes write it whole, in order, and lead back to DRAIN. -/
def Obligations.ResponseIsWrittenInFull : Prop :=
  ∀ (s : State) (more : List Pins), s.cs = .conn → s.seq = .tx → s.txq ≠ [] →
    s.env = List.replicate s.txq.length { tx := .accept } ++ more →
    ∃ t, Host.Core.run Sys2Proof.core s.txq.length s = .next t ∧ t.cs = .conn ∧ t.seq = .drain ∧ t.txq = [] ∧
      t.buf = s.buf ∧ t.env = more ∧ egress t.hist = egress s.hist ++ s.txq

/-- One supported frame end to end (R143, R162, R163, R164): with a TU that takes the request and answers `r` and a consumer that
accepts, the peer gets `frame(r)` and FR is back in DRAIN with the bytes after the frame. -/
def Obligations.SupportedFrameEndToEnd : Prop :=
  ∀ (s : State) (op : Nat) (p rem r : Bytes) (more : List Pins),
    s.par.FormatOk → s.cs = .conn → s.seq = .drain → headFrame s.par s.buf = .ok (op, p, rem) → op ∈ s.par.validOps →
    r.length ≤ s.par.rlenMax →
    s.env = { xqReady := true } :: { xr := some (.ok r) } ::
      (List.replicate (s.par.hdrBytes + r.length) { tx := .accept } ++ more) →
    ∃ t, Host.Core.run Sys2Proof.core (s.par.hdrBytes + r.length + 2) s = .next t ∧ t.cs = .conn ∧ t.seq = .drain ∧
      t.buf = rem ∧ t.txq = [] ∧ t.curPay = [] ∧ t.env = more ∧ egress t.hist = egress s.hist ++ frame s.par r ∧
      requested t.hist = requested s.hist ++ [(op, p)]

/-- One unsupported frame end to end (R116, R161, R164): the drain step and one step for each byte of the framed ERROR_TEXT, and
the peer has it; by default these are ten steps. An accept or ingress transfer offered with the first step waits through all of
them (R5). -/
def Obligations.UnsupportedFrameEndToEnd : Prop :=
  (∀ (s : State) (op : Nat) (x rem : Bytes) (p : Pins) (more : List Pins),
    s.par.FormatOk → s.cs = .conn → s.seq = .drain → headFrame s.par s.buf = .ok (op, x, rem) → op ∉ s.par.validOps →
    p.rst = false → p.stop = false →
    s.env = p :: (List.replicate (s.par.hdrBytes + s.par.errorText.length) { tx := .accept } ++ more) →
    ∃ t, Host.Core.run Sys2Proof.core (s.par.hdrBytes + s.par.errorText.length + 1) s = .next t ∧
      t.cs = .conn ∧ t.seq = .drain ∧
      t.buf = rem ∧ t.txq = [] ∧ t.curPay = [] ∧ t.env = waiting { p with xr := none } more ∧ requested t.hist = requested s.hist ∧
      egress t.hist = egress s.hist ++ beBytes s.par.hdrBytes (s.par.errorText.length % 2 ^ s.par.rlenBits) ++ s.par.errorText) ∧
  ({} : Params).hdrBytes + ({} : Params).errorText.length + 1 = 10

/-- R202 with the egress duty of R11: if the host is quiet and the consumer meets its duty, the wait in TX ends. -/
def Obligations.EgressDutyEndsTheWrite : Prop :=
  ∀ (f : Nat → Pins) (s : State), HostQuiet f → EgressDuty f s → s.cs = .conn → s.seq = .tx → s.txq ≠ [] →
    ∃ k t, drive f k s = .next t ∧ ((t.cs = .conn ∧ t.seq = .drain ∧ t.txq = []) ∨ t.cs = .closed)

/-- R202 with the TU's duty of R11: if the host is quiet and the TU meets its duty, the waits in DRAIN (for a complete supported
frame) and in XF_WAIT end. -/
def Obligations.TuDutyEndsTheWaits : Prop :=
  ∀ (f : Nat → Pins) (s : State), HostQuiet f → TuDuty f s → s.cs = .conn →
    ((∃ x, s.seq = .drain ∧ xqOffer s = some x) →
      ∃ k t, drive f k s = .next t ∧ t.cs = .conn ∧ t.seq = .xfWait) ∧
    (s.seq = .xfWait →
      ∃ k t, drive f k s = .next t ∧ ((t.cs = .conn ∧ t.seq = .tx) ∨ t.cs = .closed ∨ t.cs = .halted))

/-! The transform unit's contract. -/

/-- R111 and R112 on the pinned letters, for every choice of the open parameters: `a b c A C` give `A B C A C`, and `A b C` give
`a b c`. -/
def Obligations.PinnedLettersForceTheCase : Prop :=
  ∀ (par : Params) (tp : TuParams) (p r : Bytes), tp.Ok →
    ((∀ b ∈ p, b ∈ ([0x61, 0x62, 0x63, 0x41, 0x43] : Bytes)) → Admitted par tp 1 p (.ok r) →
      r = p.map fun b => if b.toNat < 0x61 then b else b - 0x20) ∧
    ((∀ b ∈ p, b ∈ ([0x41, 0x62, 0x43] : Bytes)) → Admitted par tp 2 p (.ok r) →
      r = p.map fun b => if b.toNat < 0x61 then b + 0x20 else b)

/-- R113, R114 and the lengths R118 derives, on a well-formed payload: the reversal and every shuffle have the payload's byte length;
the reversal is of the characters. -/
def Obligations.ReverseAndShuffleKeepLength : Prop :=
  ∀ (par : Params) (tp : TuParams) (t : List Char) (r : Bytes), tp.Ok →
    (Admitted par tp 4 (utf8 t) (.ok r) → r = utf8 t.reverse ∧ r.length = (utf8 t).length) ∧
    (Admitted par tp 8 (utf8 t) (.ok r) → r.length = (utf8 t).length ∧ ∃ t', t'.Perm t ∧ r = utf8 t') ∧
    (Admitted par tp 8 [] (.ok r) → r = [])

/-- R115, property 6: a randomized text of a non-empty text is never empty. -/
def Obligations.RandomizeIsNeverEmpty : Prop :=
  ∀ (par : Params) (tp : TuParams) (p r : Bytes), tp.Ok → tp.repair p ≠ [] → Admitted par tp 16 p (.ok r) → r ≠ []

/-- R110 on payloads of ASCII bytes with FF bytes anywhere among them: every repair drops each FF and keeps the rest, so `REVERSE`
gives the kept bytes in reverse, and `UPPER` of the pinned letters their upper case (V13 has `61 FF 62`). -/
def Obligations.IllFormedByteIsDropped : Prop :=
  ∀ (par : Params) (tp : TuParams) (p r : Bytes), tp.Ok →
    ((∀ b ∈ p, b.toNat < 0x80 ∨ b = 0xFF) → Admitted par tp 4 p (.ok r) →
      r = (p.filter fun b => b.toNat < 0x80).reverse) ∧
    ((∀ b ∈ p, b ∈ ([0x61, 0x62, 0x63, 0x41, 0x43, 0xFF] : Bytes)) → Admitted par tp 1 p (.ok r) →
      r = (p.filter fun b => b.toNat < 0x80).map fun b => if b.toNat < 0x61 then b else b - 0x20)

/-! Instances. -/

/-- R72 and R201: a step of one instance changes no other; the host's `rst` resets every instance, its `stop` stops every instance
that has none taken and is in LISTEN, CONN or CLOSED, as R195 says for one, and leaves every other as it is. -/
def Obligations.SystemsShareNothing : Prop :=
  (∀ (y z : System) (i : Nat) (p : Pins) (ms : List SysMove), y.script = .inst i p :: ms → systemStep y = .next z →
    z.insts.length = y.insts.length ∧ z.script = ms ∧ ∀ j, j ≠ i → z.insts[j]? = y.insts[j]?) ∧
  (∀ (y : System) (st : Bool) (ms : List SysMove), y.script = .host true st :: ms →
    ∃ z, systemStep y = .next z ∧ z.script = ms ∧ z.insts.length = y.insts.length ∧
      ∀ (j : Nat) (s : State), y.insts[j]? = some s → z.insts[j]? = some {
        par := s.par, cs := .listen, seq := .rx, buf := [], buflen := 0, curOp := 0, curLen := 0, curPay := []
        txq := [], faultCode := .none, stopReq := false, env := s.env, hist := s.hist }) ∧
  ∀ (y : System) (ms : List SysMove), y.script = .host false true :: ms →
    ∃ z, systemStep y = .next z ∧ z.script = ms ∧ z.insts.length = y.insts.length ∧
      ∀ (j : Nat) (s : State), y.insts[j]? = some s →
        (s.stopReq = false → s.cs = .listen ∨ s.cs = .conn ∨ s.cs = .closed →
          z.insts[j]? = some (if s.cs = .listen ∨ s.par.stopPolicy = .immediate then
            { s with
              stopReq := true, buf := [], buflen := 0, curPay := [], txq := [], cs := .stopped
              hist := .evtStop :: s.hist }
          else
            { s with stopReq := true })) ∧
        (s.stopReq = true ∨ s.cs = .stopped ∨ s.cs = .halted → z.insts[j]? = some s)
end

