-- ==== Sys2Proof/Laws/Channels.lean ====
section
/-!
SUPPORT. What waiting does to the inputs to come, channel by channel: the offer that waits comes first, the others follow in their
order, and nothing else of a record moves. With it, that a step sees its own record and FR's own fields through `hold`.
-/

namespace Sys2Proof.Machine

variable (s : State)

/-! `hold` changes only the records after the first. -/

@[simp] theorem hold_par : s.hold.par = s.par := rfl
@[simp] theorem hold_cs : s.hold.cs = s.cs := rfl
@[simp] theorem hold_seq : s.hold.seq = s.seq := rfl
@[simp] theorem hold_buf : s.hold.buf = s.buf := rfl
@[simp] theorem hold_buflen : s.hold.buflen = s.buflen := rfl
@[simp] theorem hold_curOp : s.hold.curOp = s.curOp := rfl
@[simp] theorem hold_curLen : s.hold.curLen = s.curLen := rfl
@[simp] theorem hold_curPay : s.hold.curPay = s.curPay := rfl
@[simp] theorem hold_txq : s.hold.txq = s.txq := rfl
@[simp] theorem hold_faultCode : s.hold.faultCode = s.faultCode := rfl
@[simp] theorem hold_stopReq : s.hold.stopReq = s.stopReq := rfl
@[simp] theorem hold_hist : s.hold.hist = s.hist := rfl
@[simp] theorem hold_env : s.hold.env = s.pins :: nextEnv s := rfl
@[simp] theorem hold_pins : s.hold.pins = s.pins := rfl
@[simp] theorem hold_stopTaken : stopTaken s.hold = stopTaken s := rfl
@[simp] theorem hold_pointEnabled : pointEnabled s.hold = pointEnabled s := rfl
@[simp] theorem hold_accReady : accReady s.hold = accReady s := rfl
@[simp] theorem hold_rxReady : rxReady s.hold = rxReady s := rfl
@[simp] theorem hold_xrReady : xrReady s.hold = xrReady s := rfl
@[simp] theorem hold_txOffer : txOffer s.hold = txOffer s := rfl
@[simp] theorem hold_xqOffer : xqOffer s.hold = xqOffer s := rfl

/-! Each channel's offers, in order. -/

@[simp] theorem rxOffers_nil : rxOffers [] = [] := rfl
@[simp] theorem rxOffers_cons (p : Pins) (ps : List Pins) : rxOffers (p :: ps) = p.rx.toList ++ rxOffers ps := by
  cases h : p.rx <;> simp [rxOffers, h]

@[simp] theorem xrOffers_nil : xrOffers [] = [] := rfl
@[simp] theorem xrOffers_cons (p : Pins) (ps : List Pins) : xrOffers (p :: ps) = p.xr.toList ++ xrOffers ps := by
  cases h : p.xr <;> simp [xrOffers, h]

@[simp] theorem accOffers_nil : accOffers [] = 0 := rfl
@[simp] theorem accOffers_cons (p : Pins) (ps : List Pins) : accOffers (p :: ps) = p.acc.toNat + accOffers ps := by
  cases h : p.acc <;> simp [accOffers, h, Nat.add_comm]

@[simp] theorem rxOffers_holdRx (o : Option RxOffer) (ps : List Pins) :
    rxOffers (holdRx o ps) = o.toList ++ rxOffers ps := by
  induction ps generalizing o with
  | nil => cases o <;> simp [holdRx]
  | cons p ps ih => cases o <;> simp [holdRx, ih]

@[simp] theorem rxOffers_holdXr (a : Option TuAnswer) (ps : List Pins) : rxOffers (holdXr a ps) = rxOffers ps := by
  induction ps generalizing a with
  | nil => cases a <;> simp [holdXr]
  | cons p ps ih => cases a <;> simp [holdXr, ih]

@[simp] theorem rxOffers_holdAcc (b : Bool) (ps : List Pins) : rxOffers (holdAcc b ps) = rxOffers ps := by
  induction ps generalizing b with
  | nil => cases b <;> simp [holdAcc]
  | cons p ps ih => cases b <;> simp [holdAcc, ih]

@[simp] theorem xrOffers_holdXr (a : Option TuAnswer) (ps : List Pins) :
    xrOffers (holdXr a ps) = a.toList ++ xrOffers ps := by
  induction ps generalizing a with
  | nil => cases a <;> simp [holdXr]
  | cons p ps ih => cases a <;> simp [holdXr, ih]

@[simp] theorem xrOffers_holdRx (o : Option RxOffer) (ps : List Pins) : xrOffers (holdRx o ps) = xrOffers ps := by
  induction ps generalizing o with
  | nil => cases o <;> simp [holdRx]
  | cons p ps ih => cases o <;> simp [holdRx, ih]

@[simp] theorem xrOffers_holdAcc (b : Bool) (ps : List Pins) : xrOffers (holdAcc b ps) = xrOffers ps := by
  induction ps generalizing b with
  | nil => cases b <;> simp [holdAcc]
  | cons p ps ih => cases b <;> simp [holdAcc, ih]

@[simp] theorem accOffers_holdAcc (b : Bool) (ps : List Pins) : accOffers (holdAcc b ps) = b.toNat + accOffers ps := by
  induction ps generalizing b with
  | nil => cases b <;> simp [holdAcc]
  | cons p ps ih => cases b <;> simp [holdAcc, ih]

@[simp] theorem accOffers_holdRx (o : Option RxOffer) (ps : List Pins) : accOffers (holdRx o ps) = accOffers ps := by
  induction ps generalizing o with
  | nil => cases o <;> simp [holdRx]
  | cons p ps ih => cases o <;> simp [holdRx, ih]

@[simp] theorem accOffers_holdXr (a : Option TuAnswer) (ps : List Pins) : accOffers (holdXr a ps) = accOffers ps := by
  induction ps generalizing a with
  | nil => cases a <;> simp [holdXr]
  | cons p ps ih => cases a <;> simp [holdXr, ih]

/-! The record that stands next. -/

theorem holdAcc_headD (b : Bool) (ps : List Pins) :
    (holdAcc b ps).headD {} = { ps.headD {} with acc := b || (ps.headD {}).acc } := by
  cases b <;> cases ps <;> simp [holdAcc]

theorem holdRx_headD (o : Option RxOffer) (ps : List Pins) :
    (holdRx o ps).headD {} = { ps.headD {} with rx := o.or (ps.headD {}).rx } := by
  cases o <;> cases ps <;> simp [holdRx]

theorem holdXr_headD (a : Option TuAnswer) (ps : List Pins) :
    (holdXr a ps).headD {} = { ps.headD {} with xr := a.or (ps.headD {}).xr } := by
  cases a <;> cases ps <;> simp [holdXr]

/-- The next record has the offers that wait before its own, and its own of everything else. -/
theorem waiting_headD (w : Pins) (ps : List Pins) :
    (waiting w ps).headD {} = { ps.headD {} with
      acc := w.acc || (ps.headD {}).acc, rx := w.rx.or (ps.headD {}).rx, xr := w.xr.or (ps.headD {}).xr } := by
  simp only [waiting, holdAcc_headD, holdRx_headD, holdXr_headD]

/-- With no offer waiting, the records to come are as they were. -/
@[simp] theorem waiting_none {w : Pins} (ha : w.acc = false) (hr : w.rx = none) (hx : w.xr = none) (ps : List Pins) :
    waiting w ps = ps := by
  simp [waiting, ha, hr, hx, holdAcc, holdRx, holdXr]

/-- Offers wait over a record that brings none: they stand in it. -/
theorem waiting_cons {w p : Pins} (ha : p.acc = false) (hr : p.rx = none) (hx : p.xr = none) (ps : List Pins) :
    waiting w (p :: ps) = { p with acc := w.acc, rx := w.rx, xr := w.xr } :: ps := by
  obtain ⟨_, _, _, _, _, _, _⟩ := p
  simp only at ha hr hx
  subst ha hr hx
  rcases hw : w.acc <;> rcases hr : w.rx <;> rcases hx : w.xr <;> simp [waiting, hw, hr, hx, holdAcc, holdRx, holdXr]

/-- What the host asserts and the consumers are ready for stays with its step. -/
theorem waiting_reactions (w : Pins) (ps : List Pins) (k : Nat) :
    (recordAt (waiting w ps) k).rst = (recordAt ps k).rst ∧ (recordAt (waiting w ps) k).stop = (recordAt ps k).stop ∧
      (recordAt (waiting w ps) k).xqReady = (recordAt ps k).xqReady ∧
      (recordAt (waiting w ps) k).tx = (recordAt ps k).tx := by
  have a : ∀ (b : Bool) (ps : List Pins) (k : Nat), ((holdAcc b ps)[k]?.getD {}) =
      { ps[k]?.getD {} with acc := ((holdAcc b ps)[k]?.getD {}).acc } := by
    intro b ps
    induction ps generalizing b with
    | nil => intro k; cases b <;> cases k <;> simp [holdAcc]
    | cons p ps ih => intro k; cases b <;> cases k <;> simp [holdAcc]; exact ih ..
  have r : ∀ (o : Option RxOffer) (ps : List Pins) (k : Nat), ((holdRx o ps)[k]?.getD {}) =
      { ps[k]?.getD {} with rx := ((holdRx o ps)[k]?.getD {}).rx } := by
    intro o ps
    induction ps generalizing o with
    | nil => intro k; cases o <;> cases k <;> simp [holdRx]
    | cons p ps ih => intro k; cases o <;> cases k <;> simp [holdRx]; exact ih ..
  have x : ∀ (o : Option TuAnswer) (ps : List Pins) (k : Nat), ((holdXr o ps)[k]?.getD {}) =
      { ps[k]?.getD {} with xr := ((holdXr o ps)[k]?.getD {}).xr } := by
    intro o ps
    induction ps generalizing o with
    | nil => intro k; cases o <;> cases k <;> simp [holdXr]
    | cons p ps ih => intro k; cases o <;> cases k <;> simp [holdXr]; exact ih ..
  simp only [recordAt]
  rw [waiting, a, r, x]
  exact ⟨rfl, rfl, rfl, rfl⟩

end Sys2Proof.Machine
end

