-- ==== Sys2Proof/Laws/Decode.lean ====
section
/-!
SUPPORT. One spec lemma per function of the decoder and the encoder.
-/

namespace Sys2Proof

/-! Byte order (R15). -/

@[simp] theorem beBytes_length (n v : Nat) : (beBytes n v).length = n := by
  induction n with
  | zero => rfl
  | succ n ih => simp [beBytes, ih]

/-- `n` bytes spell a value below `256^n`. -/
theorem beNat_lt (bs : Bytes) : beNat bs < 256 ^ bs.length := by
  induction bs with
  | nil => simp [beNat]
  | cons b bs ih =>
    have h : b.toNat + 1 ≤ 256 := b.isLt
    have := Nat.mul_le_mul_right (256 ^ bs.length) h
    rw [Nat.add_mul] at this
    simp only [beNat, List.length_cons, Nat.pow_succ]
    omega

/-- The bytes of a value read back as its low `n` bytes. -/
theorem beNat_beBytes (n v : Nat) : beNat (beBytes n v) = v % 256 ^ n := by
  induction n with
  | zero => simp [beBytes, beNat, Nat.mod_one]
  | succ n ih =>
    simp only [beBytes, beNat, beBytes_length, ih, BitVec.toNat_ofNat]
    rw [show (2 : Nat) ^ 8 = 256 from rfl, Nat.pow_succ, Nat.mod_mul, Nat.add_comm, Nat.mul_comm]

/-- Only the low `n` bytes of a value are spelled. -/
theorem beBytes_add_mul (n v k : Nat) : beBytes n (k * 256 ^ n + v) = beBytes n v := by
  induction n generalizing k with
  | zero => rfl
  | succ n ih =>
    have h : k * 256 ^ (n + 1) + v = k * 256 * 256 ^ n + v := by rw [Nat.pow_succ]; ring
    simp only [beBytes]
    rw [h, ih]
    congr 1
    rw [Nat.add_comm, Nat.add_mul_div_right _ _ (by positivity)]
    apply BitVec.eq_of_toNat_eq
    simp only [BitVec.toNat_ofNat]
    rw [show (2 : Nat) ^ 8 = 256 from rfl, Nat.add_mul_mod_self_right]

/-- The value of a byte sequence spells it. -/
theorem beBytes_beNat (bs : Bytes) : beBytes bs.length (beNat bs) = bs := by
  induction bs with
  | nil => rfl
  | cons b bs ih =>
    simp only [List.length_cons, beBytes, beNat, beBytes_add_mul, ih]
    congr 1
    rw [Nat.add_comm, Nat.add_mul_div_right _ _ (by positivity), Nat.div_eq_of_lt (beNat_lt bs), Nat.zero_add]
    simp

theorem slice_length {s : Bytes} {a n : Nat} (h : a + n ≤ s.length) : (slice s a n).length = n := by
  simp only [slice, List.length_take, List.length_drop]; omega

/-! The opcode map. -/

/-- The opcode map is one to one (R85): each frame it answers has the opcode and the payload asked for. -/
theorem instrOf_some {op : Nat} {p : Bytes} {i : Instr} (h : instrOf op p = some i) : i.op = op ∧ i.payload = p := by
  unfold instrOf at h
  split at h <;> cases h <;> exact ⟨rfl, rfl⟩

/-- The opcode map is onto: every frame is the one of its opcode and its payload. -/
@[simp] theorem instrOf_self (i : Instr) : instrOf i.op i.payload = some i := by
  cases i <;> rfl

/-! The header codec. -/

/-- `headAt` reads a header or refuses (R101). -/
theorem headAt_eq_none {par : Params} {bs : Bytes} : headAt par bs = none ↔ bs.length < par.hdrBytes := by
  simp [headAt]

theorem headAt_eq_some {par : Params} {bs : Bytes} {h : Nat} :
    headAt par bs = some h ↔ par.hdrBytes ≤ bs.length ∧ h = beNat (bs.take par.hdrBytes) := by
  unfold headAt
  split
  · rename_i hl
    simp only [reduceCtorEq, false_iff, not_and]
    omega
  · rename_i hl
    simp [not_lt.mp hl, eq_comm]

/-- What follows a header does not change it (R142: it "is decoded again" alike). -/
theorem headAt_append {par : Params} {bs : Bytes} {h : Nat} (hh : headAt par bs = some h) (d : Bytes) :
    headAt par (bs ++ d) = some h := by
  obtain ⟨hl, rfl⟩ := headAt_eq_some.mp hh
  exact headAt_eq_some.mpr ⟨by simp only [List.length_append]; omega, by rw [List.take_append_of_le_length hl]⟩

/-- The bytes of a value in range are read back as the value (R15, R64). -/
theorem headAt_beBytes {par : Params} {v : Nat} (hv : v < 256 ^ par.hdrBytes) (t : Bytes) :
    headAt par (beBytes par.hdrBytes v ++ t) = some v := by
  refine headAt_eq_some.mpr ⟨by simp, ?_⟩
  rw [List.take_append_of_le_length (by simp), List.take_of_length_le (by simp), beNat_beBytes, Nat.mod_eq_of_lt hv]

/-- `encodeHeader` answers exactly within its range (R102). -/
theorem encodeHeader_isSome {par : Params} {op len : Nat} :
    (encodeHeader par op len).isSome ↔ op < 2 ^ par.opBits ∧ len < 2 ^ par.lenBits := by
  unfold encodeHeader
  split <;> rename_i h
  · exact ⟨fun _ => h, fun _ => rfl⟩
  · exact ⟨fun hn => by simp at hn, fun hy => (h hy).elim⟩

/-- The two fields of a header keep to their widths (R81). -/
theorem decodeHeader_lt (par : Params) (h : Nat) :
    (decodeHeader par h).1 < 2 ^ par.opBits ∧ (decodeHeader par h).2 < 2 ^ par.lenBits :=
  ⟨Nat.mod_lt _ (by positivity), Nat.mod_lt _ (by positivity)⟩

/-! Frames. -/

/-- Everything `headFrame` says when it answers a frame (R82, R143). -/
theorem headFrame_ok {par : Params} {bs pay t : Bytes} {op : Nat} (h : headFrame par bs = .ok (op, pay, t)) :
    ∃ hd, headAt par bs = some hd ∧ op = (decodeHeader par hd).1 ∧ pay.length = (decodeHeader par hd).2 ∧
      pay = slice bs par.hdrBytes pay.length ∧ par.hdrBytes + pay.length ≤ bs.length ∧
      t = bs.drop (par.hdrBytes + pay.length) := by
  unfold headFrame at h
  split at h
  · cases h
  · rename_i hd hh
    split at h
    · cases h
    · rename_i hlen
      cases h
      have hl := slice_length (not_lt.mp hlen)
      exact ⟨hd, hh, rfl, hl, by rw [hl], by rw [hl]; omega, by rw [hl]⟩

/-- A frame found is one a header spells (R80). -/
theorem headFrame_lt {par : Params} {bs pay t : Bytes} {op : Nat} (h : headFrame par bs = .ok (op, pay, t)) :
    op < 2 ^ par.opBits ∧ pay.length < 2 ^ par.lenBits := by
  obtain ⟨hd, -, rfl, hl, -⟩ := headFrame_ok h
  rw [hl]
  exact decodeHeader_lt par hd

/-- A frame that is complete stays what it is when more bytes arrive (R146). -/
theorem headFrame_append {par : Params} {bs pay t : Bytes} {op : Nat} (h : headFrame par bs = .ok (op, pay, t)) (d : Bytes) :
    headFrame par (bs ++ d) = .ok (op, pay, t ++ d) := by
  unfold headFrame at h ⊢
  split at h
  · cases h
  · rename_i hd hh
    split at h
    · cases h
    · rename_i hlen
      cases h
      have h1 : ¬ (bs ++ d).length < par.hdrBytes + (decodeHeader par hd).2 := by
        simp only [List.length_append]; omega
      have h2 : slice (bs ++ d) par.hdrBytes (decodeHeader par hd).2 = slice bs par.hdrBytes (decodeHeader par hd).2 := by
        simp only [slice]
        rw [List.drop_append_of_le_length (by omega),
          List.take_append_of_le_length (by simp only [List.length_drop]; omega)]
      have h3 : (bs ++ d).drop (par.hdrBytes + (decodeHeader par hd).2)
          = bs.drop (par.hdrBytes + (decodeHeader par hd).2) ++ d := List.drop_append_of_le_length (by omega)
      simp only [headAt_append hh, h1, if_false, h2, h3]

/-- Each refusal says how far the head frame has come (R39). -/
theorem headFrame_error {par : Params} {bs : Bytes} {e : DecodeError} (h : headFrame par bs = .error e) :
    (e = .awaitingHeader ∧ bs.length < par.hdrBytes) ∨
      ∃ hd, e = .awaitingPayload ∧ headAt par bs = some hd ∧ bs.length < par.hdrBytes + (decodeHeader par hd).2 := by
  unfold headFrame at h
  split at h
  · rename_i hn
    cases h
    exact .inl ⟨rfl, headAt_eq_none.mp hn⟩
  · rename_i hd hh
    split at h
    · rename_i hlt
      cases h
      exact .inr ⟨hd, rfl, hh, hlt⟩
    · cases h

/-- `decode` answers an instruction exactly when the head frame is that instruction's. -/
theorem decode_ok {par : Params} {bs t : Bytes} {i : Instr} :
    decode par bs = .ok (i, t) ↔ headFrame par bs = .ok (i.op, i.payload, t) := by
  unfold decode
  constructor
  · intro h
    split at h
    · cases h
    · rename_i hf
      split at h
      · cases h
      · rename_i hi
        cases h
        obtain ⟨h1, h2⟩ := instrOf_some hi
        rw [hf, h1, h2]
  · intro h
    simp [h]

/-- A decoded frame is well-formed (R80). -/
theorem decode_wellFormed {par : Params} {bs t : Bytes} {i : Instr} (hf : par.FormatOk) (h : decode par bs = .ok (i, t)) :
    i.WellFormed par := by
  have h' := headFrame_lt (decode_ok.mp h)
  have := hf.2.2.2
  exact ⟨h'.1, by omega⟩

end Sys2Proof
end

