-- ==== Sys2Proof/Laws/State.lean ====
section
/-!
SUPPORT. What each shared operation leaves in each field: one lemma per field and update, so that no proof unfolds a record.
-/

namespace Sys2Proof.Machine

variable (s : State)

/-! `tick` -/

@[simp] theorem tick_par : (s.tick).par = s.par := rfl
@[simp] theorem tick_cs : (s.tick).cs = s.cs := rfl
@[simp] theorem tick_seq : (s.tick).seq = s.seq := rfl
@[simp] theorem tick_buf : (s.tick).buf = s.buf := rfl
@[simp] theorem tick_buflen : (s.tick).buflen = s.buflen := rfl
@[simp] theorem tick_curOp : (s.tick).curOp = s.curOp := rfl
@[simp] theorem tick_curLen : (s.tick).curLen = s.curLen := rfl
@[simp] theorem tick_curPay : (s.tick).curPay = s.curPay := rfl
@[simp] theorem tick_txq : (s.tick).txq = s.txq := rfl
@[simp] theorem tick_faultCode : (s.tick).faultCode = s.faultCode := rfl
@[simp] theorem tick_stopReq : (s.tick).stopReq = s.stopReq := rfl
@[simp] theorem tick_env : (s.tick).env = s.env.tail := rfl
@[simp] theorem tick_hist : (s.tick).hist = s.hist := rfl

/-! `emit` -/

@[simp] theorem emit_par (e : Event) : (s.emit e).par = s.par := rfl
@[simp] theorem emit_cs (e : Event) : (s.emit e).cs = s.cs := rfl
@[simp] theorem emit_seq (e : Event) : (s.emit e).seq = s.seq := rfl
@[simp] theorem emit_buf (e : Event) : (s.emit e).buf = s.buf := rfl
@[simp] theorem emit_buflen (e : Event) : (s.emit e).buflen = s.buflen := rfl
@[simp] theorem emit_curOp (e : Event) : (s.emit e).curOp = s.curOp := rfl
@[simp] theorem emit_curLen (e : Event) : (s.emit e).curLen = s.curLen := rfl
@[simp] theorem emit_curPay (e : Event) : (s.emit e).curPay = s.curPay := rfl
@[simp] theorem emit_txq (e : Event) : (s.emit e).txq = s.txq := rfl
@[simp] theorem emit_faultCode (e : Event) : (s.emit e).faultCode = s.faultCode := rfl
@[simp] theorem emit_stopReq (e : Event) : (s.emit e).stopReq = s.stopReq := rfl
@[simp] theorem emit_env (e : Event) : (s.emit e).env = s.env := rfl
@[simp] theorem emit_hist (e : Event) : (s.emit e).hist = e :: s.hist := rfl

/-! `memAppend` -/

@[simp] theorem memAppend_par (d : Bytes) : (memAppend d s).par = s.par := rfl
@[simp] theorem memAppend_cs (d : Bytes) : (memAppend d s).cs = s.cs := rfl
@[simp] theorem memAppend_seq (d : Bytes) : (memAppend d s).seq = s.seq := rfl
@[simp] theorem memAppend_buf (d : Bytes) : (memAppend d s).buf = s.buf ++ d := rfl
@[simp] theorem memAppend_buflen (d : Bytes) : (memAppend d s).buflen = countUp s.par.buflenBits d.length s.buflen := rfl
@[simp] theorem memAppend_curOp (d : Bytes) : (memAppend d s).curOp = s.curOp := rfl
@[simp] theorem memAppend_curLen (d : Bytes) : (memAppend d s).curLen = s.curLen := rfl
@[simp] theorem memAppend_curPay (d : Bytes) : (memAppend d s).curPay = s.curPay := rfl
@[simp] theorem memAppend_txq (d : Bytes) : (memAppend d s).txq = s.txq := rfl
@[simp] theorem memAppend_faultCode (d : Bytes) : (memAppend d s).faultCode = s.faultCode := rfl
@[simp] theorem memAppend_stopReq (d : Bytes) : (memAppend d s).stopReq = s.stopReq := rfl
@[simp] theorem memAppend_env (d : Bytes) : (memAppend d s).env = s.env := rfl
@[simp] theorem memAppend_hist (d : Bytes) : (memAppend d s).hist = s.hist := rfl

/-! `memDrop` -/

@[simp] theorem memDrop_par (n : Nat) : (memDrop n s).par = s.par := rfl
@[simp] theorem memDrop_cs (n : Nat) : (memDrop n s).cs = s.cs := rfl
@[simp] theorem memDrop_seq (n : Nat) : (memDrop n s).seq = s.seq := rfl
@[simp] theorem memDrop_buf (n : Nat) : (memDrop n s).buf = s.buf.drop n := rfl
@[simp] theorem memDrop_buflen (n : Nat) : (memDrop n s).buflen = countDown s.par.buflenBits n s.buflen := rfl
@[simp] theorem memDrop_curOp (n : Nat) : (memDrop n s).curOp = s.curOp := rfl
@[simp] theorem memDrop_curLen (n : Nat) : (memDrop n s).curLen = s.curLen := rfl
@[simp] theorem memDrop_curPay (n : Nat) : (memDrop n s).curPay = s.curPay := rfl
@[simp] theorem memDrop_txq (n : Nat) : (memDrop n s).txq = s.txq := rfl
@[simp] theorem memDrop_faultCode (n : Nat) : (memDrop n s).faultCode = s.faultCode := rfl
@[simp] theorem memDrop_stopReq (n : Nat) : (memDrop n s).stopReq = s.stopReq := rfl
@[simp] theorem memDrop_env (n : Nat) : (memDrop n s).env = s.env := rfl
@[simp] theorem memDrop_hist (n : Nat) : (memDrop n s).hist = s.hist := rfl

/-! `clearBuffers` -/

@[simp] theorem clearBuffers_par : (clearBuffers s).par = s.par := rfl
@[simp] theorem clearBuffers_cs : (clearBuffers s).cs = s.cs := rfl
@[simp] theorem clearBuffers_seq : (clearBuffers s).seq = s.seq := rfl
@[simp] theorem clearBuffers_buf : (clearBuffers s).buf = [] := rfl
@[simp] theorem clearBuffers_buflen : (clearBuffers s).buflen = 0 := rfl
@[simp] theorem clearBuffers_curOp : (clearBuffers s).curOp = s.curOp := rfl
@[simp] theorem clearBuffers_curLen : (clearBuffers s).curLen = s.curLen := rfl
@[simp] theorem clearBuffers_curPay : (clearBuffers s).curPay = [] := rfl
@[simp] theorem clearBuffers_txq : (clearBuffers s).txq = [] := rfl
@[simp] theorem clearBuffers_faultCode : (clearBuffers s).faultCode = s.faultCode := rfl
@[simp] theorem clearBuffers_stopReq : (clearBuffers s).stopReq = s.stopReq := rfl
@[simp] theorem clearBuffers_env : (clearBuffers s).env = s.env := rfl
@[simp] theorem clearBuffers_hist : (clearBuffers s).hist = s.hist := rfl

/-! `raiseFault` -/

@[simp] theorem raiseFault_par (c : FaultCode) : (raiseFault c s).par = s.par := rfl
@[simp] theorem raiseFault_cs (c : FaultCode) : (raiseFault c s).cs = .halted := rfl
@[simp] theorem raiseFault_seq (c : FaultCode) : (raiseFault c s).seq = s.seq := rfl
@[simp] theorem raiseFault_buf (c : FaultCode) : (raiseFault c s).buf = s.buf := rfl
@[simp] theorem raiseFault_buflen (c : FaultCode) : (raiseFault c s).buflen = s.buflen := rfl
@[simp] theorem raiseFault_curOp (c : FaultCode) : (raiseFault c s).curOp = s.curOp := rfl
@[simp] theorem raiseFault_curLen (c : FaultCode) : (raiseFault c s).curLen = s.curLen := rfl
@[simp] theorem raiseFault_curPay (c : FaultCode) : (raiseFault c s).curPay = s.curPay := rfl
@[simp] theorem raiseFault_txq (c : FaultCode) : (raiseFault c s).txq = s.txq := rfl
@[simp] theorem raiseFault_faultCode (c : FaultCode) : (raiseFault c s).faultCode = c := rfl
@[simp] theorem raiseFault_stopReq (c : FaultCode) : (raiseFault c s).stopReq = s.stopReq := rfl
@[simp] theorem raiseFault_env (c : FaultCode) : (raiseFault c s).env = s.env := rfl
@[simp] theorem raiseFault_hist (c : FaultCode) : (raiseFault c s).hist = s.hist := rfl

/-! `takeReset` -/

@[simp] theorem takeReset_par : (takeReset s).par = s.par := rfl
@[simp] theorem takeReset_cs : (takeReset s).cs = .listen := rfl
@[simp] theorem takeReset_seq : (takeReset s).seq = .rx := rfl
@[simp] theorem takeReset_buf : (takeReset s).buf = [] := rfl
@[simp] theorem takeReset_buflen : (takeReset s).buflen = 0 := rfl
@[simp] theorem takeReset_curOp : (takeReset s).curOp = 0 := rfl
@[simp] theorem takeReset_curLen : (takeReset s).curLen = 0 := rfl
@[simp] theorem takeReset_curPay : (takeReset s).curPay = [] := rfl
@[simp] theorem takeReset_txq : (takeReset s).txq = [] := rfl
@[simp] theorem takeReset_faultCode : (takeReset s).faultCode = .none := rfl
@[simp] theorem takeReset_stopReq : (takeReset s).stopReq = false := rfl
@[simp] theorem takeReset_env : (takeReset s).env = s.env := rfl
@[simp] theorem takeReset_hist : (takeReset s).hist = s.hist := rfl

/-! `latchFrame` -/

@[simp] theorem latchFrame_par (op : Nat) (pay : Bytes) : (latchFrame op pay s).par = s.par := rfl
@[simp] theorem latchFrame_cs (op : Nat) (pay : Bytes) : (latchFrame op pay s).cs = s.cs := rfl
@[simp] theorem latchFrame_seq (op : Nat) (pay : Bytes) : (latchFrame op pay s).seq = s.seq := rfl
@[simp] theorem latchFrame_buf (op : Nat) (pay : Bytes) : (latchFrame op pay s).buf = s.buf.drop (s.par.hdrBytes + pay.length) := rfl
@[simp] theorem latchFrame_buflen (op : Nat) (pay : Bytes) : (latchFrame op pay s).buflen = countDown s.par.buflenBits (s.par.hdrBytes + pay.length) s.buflen := rfl
@[simp] theorem latchFrame_curOp (op : Nat) (pay : Bytes) : (latchFrame op pay s).curOp = op := rfl
@[simp] theorem latchFrame_curLen (op : Nat) (pay : Bytes) : (latchFrame op pay s).curLen = pay.length := rfl
@[simp] theorem latchFrame_curPay (op : Nat) (pay : Bytes) : (latchFrame op pay s).curPay = pay := rfl
@[simp] theorem latchFrame_txq (op : Nat) (pay : Bytes) : (latchFrame op pay s).txq = s.txq := rfl
@[simp] theorem latchFrame_faultCode (op : Nat) (pay : Bytes) : (latchFrame op pay s).faultCode = s.faultCode := rfl
@[simp] theorem latchFrame_stopReq (op : Nat) (pay : Bytes) : (latchFrame op pay s).stopReq = s.stopReq := rfl
@[simp] theorem latchFrame_env (op : Nat) (pay : Bytes) : (latchFrame op pay s).env = s.env := rfl
@[simp] theorem latchFrame_hist (op : Nat) (pay : Bytes) : (latchFrame op pay s).hist = .extracted op pay :: s.hist := rfl

/-! `dispatchUnsup` -/

@[simp] theorem dispatchUnsup_par : (dispatchUnsup s).par = s.par := rfl
@[simp] theorem dispatchUnsup_cs : (dispatchUnsup s).cs = s.cs := rfl
@[simp] theorem dispatchUnsup_seq : (dispatchUnsup s).seq = .tx := rfl
@[simp] theorem dispatchUnsup_buf : (dispatchUnsup s).buf = s.buf := rfl
@[simp] theorem dispatchUnsup_buflen : (dispatchUnsup s).buflen = s.buflen := rfl
@[simp] theorem dispatchUnsup_curOp : (dispatchUnsup s).curOp = s.curOp := rfl
@[simp] theorem dispatchUnsup_curLen : (dispatchUnsup s).curLen = s.curLen := rfl
@[simp] theorem dispatchUnsup_curPay : (dispatchUnsup s).curPay = [] := rfl
@[simp] theorem dispatchUnsup_txq : (dispatchUnsup s).txq = frame s.par s.par.errorText := rfl
@[simp] theorem dispatchUnsup_faultCode : (dispatchUnsup s).faultCode = s.faultCode := rfl
@[simp] theorem dispatchUnsup_stopReq : (dispatchUnsup s).stopReq = s.stopReq := rfl
@[simp] theorem dispatchUnsup_env : (dispatchUnsup s).env = s.env := rfl
@[simp] theorem dispatchUnsup_hist : (dispatchUnsup s).hist = s.hist := rfl

/-! `dispatchXf` -/

@[simp] theorem dispatchXf_par : (dispatchXf s).par = s.par := rfl
@[simp] theorem dispatchXf_cs : (dispatchXf s).cs = s.cs := rfl
@[simp] theorem dispatchXf_seq : (dispatchXf s).seq = .xfWait := rfl
@[simp] theorem dispatchXf_buf : (dispatchXf s).buf = s.buf := rfl
@[simp] theorem dispatchXf_buflen : (dispatchXf s).buflen = s.buflen := rfl
@[simp] theorem dispatchXf_curOp : (dispatchXf s).curOp = s.curOp := rfl
@[simp] theorem dispatchXf_curLen : (dispatchXf s).curLen = s.curLen := rfl
@[simp] theorem dispatchXf_curPay : (dispatchXf s).curPay = s.curPay := rfl
@[simp] theorem dispatchXf_txq : (dispatchXf s).txq = s.txq := rfl
@[simp] theorem dispatchXf_faultCode : (dispatchXf s).faultCode = s.faultCode := rfl
@[simp] theorem dispatchXf_stopReq : (dispatchXf s).stopReq = s.stopReq := rfl
@[simp] theorem dispatchXf_env : (dispatchXf s).env = s.env := rfl
@[simp] theorem dispatchXf_hist : (dispatchXf s).hist = .xreq s.curOp s.curPay :: s.hist := rfl

end Sys2Proof.Machine
end

