-- ==== Sys2Proof/Laws/Ops.lean ====
section
/-!
SUPPORT. One lemma per shared operation: everything it can do. The operations with a condition are said case by case;
the others are equations of records, and Laws/State.lean has their fields.
-/

namespace Sys2Proof.Machine

/-- A framed response has HDR_BYTES bytes more than its payload (R170). -/
@[simp] theorem frame_length (par : Params) (r : Bytes) : (frame par r).length = par.hdrBytes + r.length := by
  simp [frame]

/-- In a format whose widths agree a framed response has a first byte. -/
theorem frame_ne_nil {par : Params} (h : par.FormatOk) (r : Bytes) : frame par r ≠ [] := by
  have := h.1
  exact List.ne_nil_of_length_pos (by rw [frame_length]; omega)

/-- The error response of the default parameters (R161). -/
theorem frame_errorText : frame {} ({} : Params).errorText = [0x00, 0x00, 0x00, 0x05, 0x65, 0x72, 0x72, 0x6F, 0x72] := by decide

/-- While it fits its width, the counter counts exactly, up (R33). -/
theorem countUp_eq {w n c : Nat} (h : c + n < 2 ^ w) : countUp w n c = c + n := Nat.mod_eq_of_lt h

/-- And down. -/
theorem countDown_eq {w n c : Nat} (hn : n ≤ c) (hc : c < 2 ^ w) : countDown w n c = c - n := by
  unfold countDown
  rw [Nat.mod_eq_of_lt (show n < 2 ^ w by omega), show c + 2 ^ w - n = c - n + 2 ^ w by omega, Nat.add_mod_right,
    Nat.mod_eq_of_lt (by omega)]

/-- FEED (R141): the fault, or the appended chunk. -/
theorem feed_cases (d : Bytes) (s : State) :
    (s.par.bufCap < s.buf.length + d.length ∧ feed d s = raiseFault .bufOverflow s) ∨
    (s.buf.length + d.length ≤ s.par.bufCap ∧
      feed d s = { memAppend d s with seq := .drain }.emit (.chunk d)) := by
  unfold feed
  split
  · exact .inl ⟨‹_›, rfl⟩
  · exact .inr ⟨by omega, rfl⟩

/-- XF_DONE (R163): the fault, or the staged response. -/
theorem xfDone_cases (r : Bytes) (s : State) :
    (s.par.rlenMax < r.length ∧ xfDone r s = raiseFault .rspTooLong s) ∨
    (r.length ≤ s.par.rlenMax ∧
      xfDone r s = { s with txq := frame s.par r, curPay := [], seq := .tx }.emit (.xrspOk r)) := by
  unfold xfDone
  split
  · exact .inl ⟨‹_›, rfl⟩
  · exact .inr ⟨by omega, rfl⟩

/-- TEARDOWN (R168): to STOPPED when a stop was seen, else to LISTEN. -/
theorem teardown_cases (s : State) :
    (s.stopReq = true ∧
      teardown s = { (clearBuffers s).emit .evtClose with cs := .stopped }.emit .evtStop) ∨
    (s.stopReq = false ∧ teardown s = { (clearBuffers s).emit .evtClose with cs := .listen }) := by
  unfold teardown
  split
  · exact .inl ⟨‹_›, rfl⟩
  · exact .inr ⟨Bool.eq_false_iff.mpr ‹_›, rfl⟩

/-- The stop action (R195): the connection abandoned, or only `stop_req` set. -/
theorem takeStop_cases (s : State) :
    ((s.cs = .listen ∨ s.par.stopPolicy = .immediate) ∧
      takeStop s = { clearBuffers s with stopReq := true, cs := .stopped }.emit .evtStop) ∨
    (s.cs ≠ .listen ∧ s.par.stopPolicy = .afterConnection ∧ takeStop s = { s with stopReq := true }) := by
  unfold takeStop
  split
  · exact .inl ⟨‹_›, rfl⟩
  · rename_i h
    refine .inr ⟨fun h' => h (.inl h'), ?_, rfl⟩
    cases hp : s.par.stopPolicy
    · exact (h (.inr hp)).elim
    · rfl

/-- A stop is taken only in LISTEN, CONN or CLOSED, with none taken before (R194). -/
theorem stopTaken_spec {s : State} (h : stopTaken s = true) :
    s.pins.rst = false ∧ s.pins.stop = true ∧ s.stopReq = false ∧
      (s.cs = .listen ∨ s.cs = .conn ∨ s.cs = .closed) := by
  simp only [stopTaken, stopOpen, Bool.and_eq_true, Bool.or_eq_true, Bool.not_eq_true', beq_iff_eq] at h
  tauto

/-- When neither reset nor stop takes the step, neither was open to (R196). -/
theorem pointEnabled_spec {s : State} (h : pointEnabled s = true) : s.pins.rst = false ∧ stopTaken s = false := by
  simpa [pointEnabled] using h

/-- `MemRead` answers exactly within the buffer (R16). -/
theorem memRead_eq_some {s : State} {off n : Nat} {d : Bytes} :
    memRead s off n = some d ↔ off + n ≤ s.buf.length ∧ d = slice s.buf off n := by
  unfold memRead
  split <;> rename_i h
  · simp [h, eq_comm]
  · simp [h]

/-! The memory as cells (R60): the canonical form holds of every state, so every operation keeps it; the cells say the same as
reading byte by byte; equal cells are equal buffers. -/

theorem le_of_mem_cellsFrom {off : Nat} {bs : Bytes} {c : Host.Cell} (h : c ∈ cellsFrom off bs) : off ≤ c.1 := by
  induction bs generalizing off with
  | nil => cases h
  | cons b bs ih =>
    rcases List.mem_cons.mp h with rfl | h
    · exact le_rfl
    · exact (Nat.le_succ off).trans (ih h)

theorem cellsFrom_wf (off : Nat) (bs : Bytes) : Memory.wf (cellsFrom off bs) := by
  induction bs generalizing off with
  | nil => exact List.Pairwise.nil
  | cons b bs ih => exact List.Pairwise.cons (fun c h => le_of_mem_cellsFrom h) (ih _)

theorem cells_wf (s : State) : Memory.wf s.cells := cellsFrom_wf 0 s.buf

theorem mem_cellsFrom {off a : Nat} {b : Byte} {bs : Bytes} :
    (off + a, b) ∈ cellsFrom off bs ↔ bs[a]? = some b := by
  induction bs generalizing off a with
  | nil => simp [cellsFrom]
  | cons x bs ih =>
    cases a with
    | zero =>
      simp only [cellsFrom, List.mem_cons, Nat.add_zero, List.getElem?_cons_zero]
      constructor
      · rintro (h | h)
        · simpa using (Prod.mk.inj h).2.symm
        · exact absurd (le_of_mem_cellsFrom h) (by simp)
      · rintro h
        exact .inl (by simpa using h.symm)
    | succ a =>
      simp only [cellsFrom, List.mem_cons, List.getElem?_cons_succ]
      rw [show off + (a + 1) = (off + 1) + a by omega, ih]
      exact ⟨fun h => h.resolve_left fun h => by have := (Prod.mk.inj h).1; omega, .inr⟩

theorem mem_cells {s : State} {a : Nat} {b : Byte} : (a, b) ∈ s.cells ↔ memByte s a = some b := by
  simpa [State.cells, memByte] using mem_cellsFrom (off := 0) (a := a) (b := b) (bs := s.buf)

theorem cellsFrom_injective {off : Nat} {bs cs : Bytes} (h : cellsFrom off bs = cellsFrom off cs) : bs = cs := by
  induction bs generalizing off cs with
  | nil => cases cs <;> simp_all [cellsFrom]
  | cons b bs ih =>
    cases cs with
    | nil => simp [cellsFrom] at h
    | cons c cs =>
      simp only [cellsFrom, List.cons.injEq, Prod.mk.injEq, true_and] at h
      rw [h.1, ih h.2]

end Sys2Proof.Machine
end

