-- ==== Sys2Proof/Laws/PerInstr.lean ====
section
/-!
SUPPORT. Statements made for every instruction, one lemma per constructor.
-/

namespace Sys2Proof.Laws

namespace FieldsDetermine

/-- The opcode and the payload of a frame determine it: reading both and building the frame anew gives it back (R81, R85). -/
def Statement (i : Instr) : Prop := instrOf i.op i.payload = some i

theorem unsupOp0 (p : Bytes) : Statement (.unsupOp0 p) := rfl
theorem upper (p : Bytes) : Statement (.upper p) := rfl
theorem lower (p : Bytes) : Statement (.lower p) := rfl
theorem unsupOp3 (p : Bytes) : Statement (.unsupOp3 p) := rfl
theorem reverse (p : Bytes) : Statement (.reverse p) := rfl
theorem unsupOp5 (p : Bytes) : Statement (.unsupOp5 p) := rfl
theorem unsupOp6 (p : Bytes) : Statement (.unsupOp6 p) := rfl
theorem unsupOp7 (p : Bytes) : Statement (.unsupOp7 p) := rfl
theorem shuffle (p : Bytes) : Statement (.shuffle p) := rfl
theorem unsupOp9 (p : Bytes) : Statement (.unsupOp9 p) := rfl
theorem unsupOp10 (p : Bytes) : Statement (.unsupOp10 p) := rfl
theorem unsupOp11 (p : Bytes) : Statement (.unsupOp11 p) := rfl
theorem unsupOp12 (p : Bytes) : Statement (.unsupOp12 p) := rfl
theorem unsupOp13 (p : Bytes) : Statement (.unsupOp13 p) := rfl
theorem unsupOp14 (p : Bytes) : Statement (.unsupOp14 p) := rfl
theorem unsupOp15 (p : Bytes) : Statement (.unsupOp15 p) := rfl
theorem randomize (p : Bytes) : Statement (.randomize p) := rfl
theorem unsupOp17 (p : Bytes) : Statement (.unsupOp17 p) := rfl
theorem unsupOp18 (p : Bytes) : Statement (.unsupOp18 p) := rfl
theorem unsupOp19 (p : Bytes) : Statement (.unsupOp19 p) := rfl
theorem unsupOp20 (p : Bytes) : Statement (.unsupOp20 p) := rfl
theorem unsupOp21 (p : Bytes) : Statement (.unsupOp21 p) := rfl
theorem unsupOp22 (p : Bytes) : Statement (.unsupOp22 p) := rfl
theorem unsupOp23 (p : Bytes) : Statement (.unsupOp23 p) := rfl
theorem unsupOp24 (p : Bytes) : Statement (.unsupOp24 p) := rfl
theorem unsupOp25 (p : Bytes) : Statement (.unsupOp25 p) := rfl
theorem unsupOp26 (p : Bytes) : Statement (.unsupOp26 p) := rfl
theorem unsupOp27 (p : Bytes) : Statement (.unsupOp27 p) := rfl
theorem unsupOp28 (p : Bytes) : Statement (.unsupOp28 p) := rfl
theorem unsupOp29 (p : Bytes) : Statement (.unsupOp29 p) := rfl
theorem unsupOp30 (p : Bytes) : Statement (.unsupOp30 p) := rfl
theorem unsupOp31 (p : Bytes) : Statement (.unsupOp31 p) := rfl

end FieldsDetermine

end Sys2Proof.Laws
end

