-- ==== Sys2Proof/Laws/Step.lean ====
section
/-!
SUPPORT. What a step can do, said once: `step_move` lists every way a step can answer a next state, row by row of the step table
(R174) with its guard, from the state in which untaken offers wait (R5). Claims about all steps go by cases on it.
-/

namespace Sys2Proof.Machine

/-- Every opcode's meaning is the shared extraction, at its own opcode (R143). -/
theorem exec_eq_extract (i : Instr) (s : State) : exec i s = extract i.op i.payload s := by
  cases i <;> rfl

/-- Everything `extract` can answer (R143, R161, R162). -/
theorem extract_next {op : Nat} {p : Bytes} {s t : State} (h : extract op p s = .next t) :
    (classify s.par op = .unsupported ∧ t = (dispatchUnsup (latchFrame op p s)).tick) ∨
    (classify s.par op = .supported ∧ s.pins.xqReady = true ∧ t = (dispatchXf (latchFrame op p s)).tick) ∨
    (classify s.par op = .supported ∧ s.pins.xqReady = false ∧ t = s.tick) := by
  unfold extract at h
  split at h
  · exact .inl ⟨‹_›, by simpa using h.symm⟩
  · split at h
    · exact .inr (.inl ⟨‹_›, ‹_›, by simpa using h.symm⟩)
    · exact .inr (.inr ⟨‹_›, Bool.eq_false_iff.mpr ‹_›, by simpa using h.symm⟩)

/-- There is a frame at the head of `buf` exactly in phase FrameReady (R39, R142). -/
theorem phase_frameReady_iff {par : Params} {bs : Bytes} :
    phase par bs = .frameReady ↔ ∃ op pay t, headFrame par bs = .ok (op, pay, t) := by
  unfold phase headFrame
  cases headAt par bs with
  | none => simp
  | some h =>
    by_cases hlt : bs.length < par.hdrBytes + (decodeHeader par h).2
    · simp [hlt]
    · simp [hlt]

/-- The drain step extracts the frame at the head of `buf`, whatever its opcode, or goes back to RX (R142, R143). -/
theorem drainPoint_eq (s : State) : drainPoint s =
    match headFrame s.par s.buf with
    | .error _ => .next { s with seq := .rx }.tick
    | .ok (op, pay, _) => extract op pay s := by
  unfold drainPoint
  cases headFrame s.par s.buf with
  | error e => rfl
  | ok x =>
    obtain ⟨op, pay, t⟩ := x
    dsimp only
    cases hi : instrOf op pay with
    | none => rfl
    | some i =>
      obtain ⟨rfl, rfl⟩ := instrOf_some hi
      exact exec_eq_extract i s

/-- One row of the step table, with its guard (R174, R194, R220). -/
inductive Move (s : State) : State → Prop where
  | reset (h : s.pins.rst = true) : Move s (takeReset s).tick
  | stop (h : stopTaken s = true) : Move s (takeStop s).tick
  | wait : Move s s.tick
  | accept (hc : s.cs = .listen) (h : s.pins.acc = true) : Move s (takeAccept s).tick
  | feed (hc : s.cs = .conn) (hq : s.seq = .rx) (d : Bytes) (h : s.pins.rx = some (.chunk d))
      (hn : 1 ≤ d.length) (hm : d.length ≤ s.par.chunkMax) : Move s (Machine.feed d s).tick
  | fin (hc : s.cs = .conn) (hq : s.seq = .rx) (h : s.pins.rx = some .fin) : Move s (peerFin s).tick
  | rerr (hc : s.cs = .conn) (hq : s.seq = .rx) (h : s.pins.rx = some .rerr) : Move s (peerErr s).tick
  | drained (hc : s.cs = .conn) (hq : s.seq = .drain) (h : phase s.par s.buf ≠ .frameReady) :
      Move s { s with seq := .rx }.tick
  | unsup (hc : s.cs = .conn) (hq : s.seq = .drain) (op : Nat) (p t : Bytes) (h : headFrame s.par s.buf = .ok (op, p, t))
      (hi : classify s.par op = .unsupported) : Move s (dispatchUnsup (latchFrame op p s)).tick
  | request (hc : s.cs = .conn) (hq : s.seq = .drain) (op : Nat) (p t : Bytes) (h : headFrame s.par s.buf = .ok (op, p, t))
      (hi : classify s.par op = .supported) (hr : s.pins.xqReady = true) :
      Move s (dispatchXf (latchFrame op p s)).tick
  | done (hc : s.cs = .conn) (hq : s.seq = .xfWait) (r : Bytes) (h : s.pins.xr = some (.ok r)) :
      Move s (xfDone r s).tick
  | fail (hc : s.cs = .conn) (hq : s.seq = .xfWait) (h : s.pins.xr = some .fail) : Move s (xfFail s).tick
  | write (hc : s.cs = .conn) (hq : s.seq = .tx) (b : Byte) (r : Bytes) (ht : s.txq = b :: r)
      (h : s.pins.tx = .accept) : Move s (writeByte b r s).tick
  | txErr (hc : s.cs = .conn) (hq : s.seq = .tx) (ht : s.txq ≠ []) (h : s.pins.tx = .err) :
      Move s (Machine.txErr s).tick
  | teardown (hc : s.cs = .closed) : Move s (Machine.teardown s).tick

/-- Everything the action of a step that answers a next state can have been. -/
theorem turn_move {s t : State} (h : turn s = .next t) : Move s t := by
  unfold turn at h
  split at h
  · cases h; exact .reset ‹_›
  · split at h
    · cases h; exact .stop ‹_›
    · unfold pointStep at h
      split at h
      · unfold listenPoint at h
        split at h
        · cases h; exact .accept ‹_› ‹_›
        · cases h; exact .wait
      · split at h
        · unfold rxPoint at h
          split at h
          · cases h; exact .wait
          · split at h
            · rename_i hd; cases h; exact .feed ‹_› ‹_› _ ‹_› hd.1 hd.2
            · cases h
          · cases h; exact .fin ‹_› ‹_› ‹_›
          · cases h; exact .rerr ‹_› ‹_› ‹_›
        · rw [drainPoint_eq] at h
          split at h
          · rename_i e he
            cases h
            refine .drained ‹_› ‹_› ?_
            rw [ne_eq, phase_frameReady_iff]
            simp [he]
          · obtain ⟨hi, rfl⟩ | ⟨hi, hr, rfl⟩ | ⟨-, -, rfl⟩ := extract_next h
            · exact .unsup ‹_› ‹_› _ _ _ ‹_› hi
            · exact .request ‹_› ‹_› _ _ _ ‹_› hi hr
            · exact .wait
        · unfold xfWaitPoint at h
          split at h
          · cases h; exact .wait
          · cases h; exact .done ‹_› ‹_› _ ‹_›
          · cases h; exact .fail ‹_› ‹_› ‹_›
        · unfold txPoint at h
          split at h
          · cases h
          · rename_i hq
            split at h
            · cases h; exact .wait
            · cases h; exact .write ‹_› ‹_› _ _ hq ‹_›
            · cases h; exact .txErr ‹_› ‹_› (by simp [hq]) ‹_›
      · cases h; exact .teardown ‹_›
      · cases h; exact .wait
      · cases h; exact .wait

/-- A step's action, chosen on this step's own record (R196), from the state in which untaken offers wait (R5). -/
theorem step_eq (s : State) : step s =
    if s.pins.rst = true then .next (takeReset s.hold).tick
    else if stopTaken s = true then .next (takeStop s.hold).tick
    else pointStep s.hold := rfl

/-- Everything a step that answers a next state can have done: a row of the table, with the untaken offers left standing. -/
theorem step_move {s t : State} (h : step s = .next t) : Move s.hold t := turn_move h

end Sys2Proof.Machine
end

