-- ==== Sys2Proof/Laws/Run.lean ====
section
/-!
SUPPORT. Runs of many steps, one step at a time: the machine's own run, and a run driven from outside.
-/

namespace Sys2Proof.Machine

theorem core_run_succ {M : Host.Core} {s t : M.State} (h : M.step s = .next t) (k : Nat) :
    M.run (k + 1) s = M.run k t := by
  simp only [Host.Core.run, h]

/-- A run goes on from the state its first step answers. -/
theorem run_succ {s t : State} (h : step s = .next t) (k : Nat) :
    Host.Core.run Sys2Proof.core (k + 1) s = Host.Core.run Sys2Proof.core k t := core_run_succ h k

/-- When neither reset nor stop takes the step, the step is the control point's (R196). -/
theorem step_eq_pointStep {s : State} (h : pointEnabled s = true) : step s = pointStep s.hold := by
  simp only [pointEnabled, Bool.and_eq_true, Bool.not_eq_true'] at h
  simp [step, cycle, turn, h.1, h.2]

theorem drive_succ {f : Nat → Pins} {k : Nat} {s t : State} (h : drive f k s = .next t) :
    drive f (k + 1) s = driveStep (f k) t := by
  simp only [drive, h]

/-- The host's and the consumers' pins of a driven step are the driven ones; the offers are those that stand before the new ones. -/
theorem arrive_headD (p : Pins) (env : List Pins) :
    (arrive p env).headD {} = { p with
      acc := (env.headD {}).acc || p.acc, rx := (env.headD {}).rx.or p.rx, xr := (env.headD {}).xr.or p.xr } := by
  rw [arrive, waiting_headD]
  rfl

/-- The pins of a driven step. -/
theorem pins_arrive (p : Pins) (s : State) :
    State.pins { s with env := arrive p s.env } = { p with
      acc := s.pins.acc || p.acc, rx := s.pins.rx.or p.rx, xr := s.pins.xr.or p.xr } := arrive_headD p s.env

/-- A driven step whose host is quiet is the control point's, on the pins that have arrived. -/
theorem driveStep_quiet {p : Pins} {s : State} (hr : p.rst = false) (hs : p.stop = false) :
    driveStep p s = pointStep (State.hold { s with env := arrive p s.env }) := by
  refine step_eq_pointStep ?_
  simp [pointEnabled, stopTaken, pins_arrive, hr, hs]

end Sys2Proof.Machine
end

