-- ==== Sys2Proof/Laws/Transform.lean ====
section
/-!
SUPPORT. UTF-8 of a text (R110), and that the constraints on the transform unit's open parameters can be met: `repairExists`
gives a UTF8_REPAIR that keeps all of them.
-/

namespace Sys2Proof.Machine

theorem char_toNat_lt (c : Char) : c.toNat < 0x110000 := by
  have h : c.toNat < 0xd800 ∨ 0xdfff < c.toNat ∧ c.toNat < 0x110000 := c.valid
  omega

theorem utf8Char_ascii {c : Char} (h : c.toNat < 0x80) : utf8Char c = [BitVec.ofNat 8 c.toNat] := by
  simp [utf8Char, h]

/-- A character beyond ASCII takes at least two bytes, none of them below 0x80. -/
theorem utf8Char_high {c : Char} (h : ¬ c.toNat < 0x80) :
    2 ≤ (utf8Char c).length ∧ ∀ b ∈ utf8Char c, ¬ b.toNat < 0x80 := by
  have hc := char_toNat_lt c
  unfold utf8Char
  split
  · contradiction
  · split
    · simp; omega
    · split
      · simp; omega
      · simp; omega

theorem utf8Char_ne_nil (c : Char) : utf8Char c ≠ [] := by
  unfold utf8Char
  repeat' split
  all_goals simp

/-- The encoding is prefix-free: the bytes of a character tell it. -/
theorem utf8Char_append_inj {c d : Char} {x y : Bytes} (h : utf8Char c ++ x = utf8Char d ++ y) :
    c = d ∧ x = y := by
  have hc := char_toNat_lt c
  have hd := char_toNat_lt d
  have key : c.toNat = d.toNat ∧ x = y := by
    unfold utf8Char at h
    split at h <;> split at h
    all_goals try split at h
    all_goals try split at h
    all_goals try split at h
    all_goals try split at h
    all_goals
      simp only [List.cons_append, List.nil_append, List.cons.injEq, ← BitVec.toNat_inj, BitVec.toNat_ofNat] at h
    all_goals try refine ⟨?_, by tauto⟩
    all_goals omega
  exact ⟨Char.toNat_inj.mp key.1, key.2⟩

@[simp] theorem utf8_nil : utf8 [] = [] := rfl

@[simp] theorem utf8_cons (c : Char) (t : List Char) : utf8 (c :: t) = utf8Char c ++ utf8 t := rfl

theorem utf8_eq_nil {t : List Char} : utf8 t = [] ↔ t = [] := by
  cases t <;> simp [utf8Char_ne_nil]

theorem utf8_injective {t u : List Char} (h : utf8 t = utf8 u) : t = u := by
  induction t generalizing u with
  | nil => exact (utf8_eq_nil.mp h.symm).symm
  | cons c t ih =>
    cases u with
    | nil => exact absurd (utf8_eq_nil.mp h) (by simp)
    | cons d u =>
      obtain ⟨rfl, ht⟩ := utf8Char_append_inj h
      rw [ih ht]

/-- A permutation of characters has the same number of bytes (R114). -/
theorem utf8_length_perm {t u : List Char} (h : t.Perm u) : (utf8 t).length = (utf8 u).length := by
  simp only [utf8, List.length_flatMap]
  exact (h.map _).sum_eq

/-- The ASCII characters of a text are the bytes below 0x80 of its encoding. -/
theorem utf8_filter_ascii (t : List Char) :
    t.filter (fun c => c.toNat < 0x80)
      = ((utf8 t).filter (fun b => b.toNat < 0x80)).map (fun b => Char.ofNat b.toNat) := by
  induction t with
  | nil => rfl
  | cons c t ih =>
    rw [utf8_cons, List.filter_append, List.map_append, ← ih]
    by_cases h : c.toNat < 0x80
    · rw [utf8Char_ascii h]
      have hm : c.toNat % 256 = c.toNat := Nat.mod_eq_of_lt (by omega)
      simp [hm, h]
    · have hn : (utf8Char c).filter (fun b => b.toNat < 0x80) = [] := by
        simpa [List.filter_eq_nil_iff] using (utf8Char_high h).2
      simp [hn, h]

theorem toNat_ofNat_ascii {n : Nat} (h : n < 0x80) : (Char.ofNat n).toNat = n := by
  have hv : n.isValidChar := .inl (by omega)
  simp [Char.ofNat, hv, Char.toNat, Char.ofNatAux]

/-- Bytes below 0x80, read as characters, are encoded as themselves. -/
theorem utf8_map_ascii {p : Bytes} (h : ∀ b ∈ p, b.toNat < 0x80) :
    utf8 (p.map fun b => Char.ofNat b.toNat) = p := by
  induction p with
  | nil => rfl
  | cons b p ih =>
    have hb : b.toNat < 0x80 := h b (by simp)
    have hv : (Char.ofNat b.toNat).toNat = b.toNat := toNat_ofNat_ascii hb
    rw [List.map_cons, utf8_cons, ih fun x hx => h x (by simp [hx]), utf8Char_ascii (by omega), hv]
    simp

/-- Some UTF8_REPAIR keeps everything R110 asks: decode what is well-formed, keep the ASCII bytes of the rest. -/
theorem repairExists : ∃ f, RepairOk f := by
  classical
  refine ⟨fun p => if h : ∃ t, utf8 t = p then h.choose
    else (p.filter fun b => b.toNat < 0x80).map fun b => Char.ofNat b.toNat, ?_, ?_, ?_⟩
  · intro t
    have h : ∃ u, utf8 u = utf8 t := ⟨t, rfl⟩
    simp only [h, dif_pos]
    exact utf8_injective h.choose_spec
  · intro p
    by_cases h : ∃ t, utf8 t = p
    · simp only [h, dif_pos]
      rw [h.choose_spec]
    · simp only [h, dif_neg, not_false_eq_true]
      rw [utf8_map_ascii (by simp)]
      exact List.filter_sublist
  · intro p
    by_cases h : ∃ t, utf8 t = p
    · simp only [h, dif_pos]
      conv_rhs => rw [← h.choose_spec]
      exact utf8_filter_ascii _
    · simp only [h, dif_neg, not_false_eq_true]
      rw [List.filter_eq_self.mpr]
      simp only [List.mem_map, List.mem_filter, decide_eq_true_eq]
      rintro c ⟨b, ⟨-, hb⟩, rfl⟩
      rw [toNat_ofNat_ascii hb]
      exact hb

end Sys2Proof.Machine
end

