-- ==== Sys2Proof/Tests/Slice0.lean ====
section
/-!
SUPPORT. Tests of the model, each about one step on a small state, with results taken from spec/95_test_vectors.md or by hand from
the rules; the decoding of every opcode from its word in spec/opcode_table.json; the smoke test of WellFormed; and a witness for
the hypotheses of every statement that has some.
-/

namespace Sys2Proof.Tests

open Sys2Proof.Machine

/-- A connection at sequencer point `q` with `buf` buffered, on the pins `p`. -/
def connAt (q : SeqPoint) (buf : Bytes) (p : Pins) : State :=
  { State.reset with cs := .conn, seq := q, buf := buf, buflen := buf.length, env := [p] }

/-- What `f` says of the next state, if there is one. -/
def after {α : Type} (o : Host.Outcome State Fault Refusal) (f : State → α) : Option α :=
  match o with
  | .next t => some (f t)
  | .fault _ => none
  | .refused _ => none

/-! WellFormed: a payload of 2^27 bytes is refused, by the check and by the encoder; the longest legal one is not. An opcode that a
narrower opcode field does not spell is refused. -/

/-- Byte strings of every length exist: the tests at a length too long to write out are about any byte string of that length. -/
theorem exists_bytes (n : Nat) : ∃ p : Bytes, p.length = n := ⟨List.replicate n 0, List.length_replicate⟩

theorem test_wellFormed_refuses_long_payload (p : Bytes) (h : p.length = 134217728) : ¬ (Instr.upper p).WellFormed {} := by
  simp [Instr.WellFormed, Instr.payload, Config.lenMaxDefault, h]

theorem test_wellFormed_accepts_lenMax (p : Bytes) (h : p.length = 134217727) : (Instr.unsupOp0 p).WellFormed {} := by
  simp [Instr.WellFormed, Instr.op, Instr.payload, Config.lenMaxDefault, h]

theorem test_encode_refuses_long_payload (p : Bytes) (h : p.length = 134217728) : encode {} (.upper p) = none := by
  simp [encode, frameOf, encodeHeader, Instr.payload, Config.lenBitsDefault, h]
theorem test_wellFormed_refuses_wide_opcode :
    ¬ (Instr.randomize []).WellFormed { opBits := 4 } ∧ (Instr.unsupOp15 []).WellFormed { opBits := 4 } ∧
      encode { opBits := 4 } (.randomize []) = none := by decide

/-! V9: header codec. -/

theorem test_decodeHeader_property7 : decodeHeader {} 0x08000003 = (1, 3) := by decide
theorem test_decodeHeader_mixed : decodeHeader {} 0x12345678 = (2, 36984440) := by decide
theorem test_decodeHeader_two_bits : decodeHeader {} 0x88000000 = (17, 0) := by decide
theorem test_headAt_bigEndian : headAt {} [0x12, 0x34, 0x56, 0x78] = some 0x12345678 := by decide
theorem test_headAt_short : headAt {} [0x12, 0x34, 0x56] = none := by decide
theorem test_encodeHeader_property8 : encodeHeader {} 31 1 = some 0xF8000001 := by decide
theorem test_encodeHeader_max : encodeHeader {} 31 134217727 = some 0xFFFFFFFF := by decide
theorem test_encodeHeader_op_refused : encodeHeader {} 32 0 = none := by decide
theorem test_encodeHeader_len_refused : encodeHeader {} 0 134217728 = none := by decide
/-- The one-hot reading of the table, which R104 derives. -/
theorem test_classify_oneHot :
    ∀ op < 32, classify {} op = .supported ↔ op ≠ 0 ∧ op &&& (op - 1) = 0 := by decide
theorem test_classify_16_17 : classify {} 16 = .supported ∧ classify {} 17 = .unsupported := by decide

/-! The parameters of R12 are arguments: the defaults agree with each other, and a machine of another format decodes and runs. -/

theorem test_defaults_agree :
    ({} : Params).FormatOk ∧ ({} : Params).CounterFits ∧ ({} : Params).ResponsesFit ∧ ({} : Params).Roomy ∧
      ({} : Params).lenMax = 2 ^ 27 - 1 ∧ ({} : Params).rlenMax = 2 ^ 32 - 1 ∧ ({} : Params).residueMax = ({} : Params).lenMax + 3 ∧
      ({} : Params).bufCap = ({} : Params).lenMax + 3 + ({} : Params).chunkMax := by decide

/-- Two header bytes: a 5-bit opcode over an 11-bit length, lengths of responses in 16 bits, a counter of 12 bits. -/
def narrow : Params :=
  { hdrBytes := 2, lenBits := 11, lenMax := 2047, rlenBits := 16, rlenMax := 65535, bufCap := 4000, buflenBits := 12 }

/-- Two header bytes: a 6-bit opcode over a 10-bit length; the opcode 40 is supported. -/
def wide : Params :=
  { narrow with opBits := 6, lenBits := 10, lenMax := 1023, validOps := [40] }

theorem test_formats_agree : narrow.FormatOk ∧ narrow.CounterFits ∧ narrow.ResponsesFit ∧ wide.FormatOk := by decide
theorem test_narrow_codec :
    decodeHeader narrow 0x0803 = (1, 3) ∧ encodeHeader narrow 31 1 = some 0xF801 ∧ encodeHeader narrow 0 2048 = none ∧
      decode narrow [0x08, 0x01, 0x61, 0x10] = .ok (.upper [0x61], [0x10]) ∧
      phase narrow [0x08] = .awaitingHeader ∧ phase narrow [0x08, 0x01] = .awaitingPayload := by decide
theorem test_narrow_request :
    after (step { connAt .drain [0x08, 0x01, 0x61, 0x10] { xqReady := true } with par := narrow })
      (fun t => (t.buf, t.buflen, t.hist)) = some ([0x10], 1, [.xreq 1 [0x61], .extracted 1 [0x61]]) := by decide
theorem test_narrow_frame : frame narrow [0x41] = [0x00, 0x01, 0x41] := by decide
/-- An opcode above 31 has no row of the opcode table, and is extracted like every other, by VALID_OPS. -/
theorem test_wide_opcode_supported :
    decode wide [0xA0, 0x01, 0x61] = .error .noRow ∧
      after (step { connAt .drain [0xA0, 0x01, 0x61] { xqReady := true } with par := wide })
        (fun t => (t.seq, t.buf, t.hist)) = some (.xfWait, [], [.xreq 40 [0x61], .extracted 40 [0x61]]) := by decide
theorem test_wide_opcode_unsupported :
    after (step { connAt .drain [0xA4, 0x00] {} with par := wide })
      (fun t => (t.seq, t.txq, t.hist)) = some (.tx, [0x00, 0x05, 0x65, 0x72, 0x72, 0x6F, 0x72], [.extracted 41 []]) := by decide
/-- The counter wraps at its width, which CounterFits excludes. -/
theorem test_counter_has_its_width :
    after (step { connAt .rx [0x08, 0x00, 0x00] { rx := some (.chunk [0x61]) } with par := { buflenBits := 2 } })
      (fun t => t.buflen) = some 0 := by decide
theorem test_table_is_an_argument :
    after (exec (.unsupOp3 []) { connAt .drain [0x18, 0x00, 0x00, 0x00] { xqReady := true } with par := { validOps := [3] } })
      (fun t => t.hist) = some [.xreq 3 [], .extracted 3 []] := by decide
theorem test_errorText_is_an_argument :
    after (exec (.upper []) { connAt .drain [0x08, 0x00, 0x00, 0x00] {} with par := { validOps := [], errorText := [0x3F] } })
      (fun t => t.txq) = some [0x00, 0x00, 0x00, 0x01, 0x3F] := by decide

/-! Every opcode, its header written out from its match word in opcode_table.json, with a payload of one byte. -/

theorem test_decode_unsupOp0 :
    decode {} [0x00, 0x00, 0x00, 0x01, 0x61] = .ok (.unsupOp0 [0x61], []) := by decide
theorem test_decode_upper :
    decode {} [0x08, 0x00, 0x00, 0x01, 0x61] = .ok (.upper [0x61], []) := by decide
theorem test_decode_lower :
    decode {} [0x10, 0x00, 0x00, 0x01, 0x61] = .ok (.lower [0x61], []) := by decide
theorem test_decode_unsupOp3 :
    decode {} [0x18, 0x00, 0x00, 0x01, 0x61] = .ok (.unsupOp3 [0x61], []) := by decide
theorem test_decode_reverse :
    decode {} [0x20, 0x00, 0x00, 0x01, 0x61] = .ok (.reverse [0x61], []) := by decide
theorem test_decode_unsupOp5 :
    decode {} [0x28, 0x00, 0x00, 0x01, 0x61] = .ok (.unsupOp5 [0x61], []) := by decide
theorem test_decode_unsupOp6 :
    decode {} [0x30, 0x00, 0x00, 0x01, 0x61] = .ok (.unsupOp6 [0x61], []) := by decide
theorem test_decode_unsupOp7 :
    decode {} [0x38, 0x00, 0x00, 0x01, 0x61] = .ok (.unsupOp7 [0x61], []) := by decide
theorem test_decode_shuffle :
    decode {} [0x40, 0x00, 0x00, 0x01, 0x61] = .ok (.shuffle [0x61], []) := by decide
theorem test_decode_unsupOp9 :
    decode {} [0x48, 0x00, 0x00, 0x01, 0x61] = .ok (.unsupOp9 [0x61], []) := by decide
theorem test_decode_unsupOp10 :
    decode {} [0x50, 0x00, 0x00, 0x01, 0x61] = .ok (.unsupOp10 [0x61], []) := by decide
theorem test_decode_unsupOp11 :
    decode {} [0x58, 0x00, 0x00, 0x01, 0x61] = .ok (.unsupOp11 [0x61], []) := by decide
theorem test_decode_unsupOp12 :
    decode {} [0x60, 0x00, 0x00, 0x01, 0x61] = .ok (.unsupOp12 [0x61], []) := by decide
theorem test_decode_unsupOp13 :
    decode {} [0x68, 0x00, 0x00, 0x01, 0x61] = .ok (.unsupOp13 [0x61], []) := by decide
theorem test_decode_unsupOp14 :
    decode {} [0x70, 0x00, 0x00, 0x01, 0x61] = .ok (.unsupOp14 [0x61], []) := by decide
theorem test_decode_unsupOp15 :
    decode {} [0x78, 0x00, 0x00, 0x01, 0x61] = .ok (.unsupOp15 [0x61], []) := by decide
theorem test_decode_randomize :
    decode {} [0x80, 0x00, 0x00, 0x01, 0x61] = .ok (.randomize [0x61], []) := by decide
theorem test_decode_unsupOp17 :
    decode {} [0x88, 0x00, 0x00, 0x01, 0x61] = .ok (.unsupOp17 [0x61], []) := by decide
theorem test_decode_unsupOp18 :
    decode {} [0x90, 0x00, 0x00, 0x01, 0x61] = .ok (.unsupOp18 [0x61], []) := by decide
theorem test_decode_unsupOp19 :
    decode {} [0x98, 0x00, 0x00, 0x01, 0x61] = .ok (.unsupOp19 [0x61], []) := by decide
theorem test_decode_unsupOp20 :
    decode {} [0xA0, 0x00, 0x00, 0x01, 0x61] = .ok (.unsupOp20 [0x61], []) := by decide
theorem test_decode_unsupOp21 :
    decode {} [0xA8, 0x00, 0x00, 0x01, 0x61] = .ok (.unsupOp21 [0x61], []) := by decide
theorem test_decode_unsupOp22 :
    decode {} [0xB0, 0x00, 0x00, 0x01, 0x61] = .ok (.unsupOp22 [0x61], []) := by decide
theorem test_decode_unsupOp23 :
    decode {} [0xB8, 0x00, 0x00, 0x01, 0x61] = .ok (.unsupOp23 [0x61], []) := by decide
theorem test_decode_unsupOp24 :
    decode {} [0xC0, 0x00, 0x00, 0x01, 0x61] = .ok (.unsupOp24 [0x61], []) := by decide
theorem test_decode_unsupOp25 :
    decode {} [0xC8, 0x00, 0x00, 0x01, 0x61] = .ok (.unsupOp25 [0x61], []) := by decide
theorem test_decode_unsupOp26 :
    decode {} [0xD0, 0x00, 0x00, 0x01, 0x61] = .ok (.unsupOp26 [0x61], []) := by decide
theorem test_decode_unsupOp27 :
    decode {} [0xD8, 0x00, 0x00, 0x01, 0x61] = .ok (.unsupOp27 [0x61], []) := by decide
theorem test_decode_unsupOp28 :
    decode {} [0xE0, 0x00, 0x00, 0x01, 0x61] = .ok (.unsupOp28 [0x61], []) := by decide
theorem test_decode_unsupOp29 :
    decode {} [0xE8, 0x00, 0x00, 0x01, 0x61] = .ok (.unsupOp29 [0x61], []) := by decide
theorem test_decode_unsupOp30 :
    decode {} [0xF0, 0x00, 0x00, 0x01, 0x61] = .ok (.unsupOp30 [0x61], []) := by decide
theorem test_decode_unsupOp31 :
    decode {} [0xF8, 0x00, 0x00, 0x01, 0x61] = .ok (.unsupOp31 [0x61], []) := by decide

theorem test_decodeTableWord_randomize : decodeTableWord 32 0x80000002 = some (.randomize [0, 0]) := by decide

theorem test_withFetchWord_runs :
    after (step (State.reset.withFetchWord 32 0x08000000)) (fun t => (t.cs, t.seq, t.hist))
      = some (.conn, .xfWait, [.xreq 1 [], .extracted 1 []]) := by decide

/-! V10: the phase. -/

theorem test_phase_lenZero : phase {} [0x08, 0x00, 0x00, 0x00] = .frameReady := by decide
theorem test_phase_short : phase {} [0x08, 0x00, 0x00] = .awaitingHeader := by decide
theorem test_phase_payload : phase {} [0x08, 0x00, 0x00, 0x03, 0x61] = .awaitingPayload := by decide
theorem test_phase_trailing : phase {} [0x08, 0x00, 0x00, 0x03, 0x61, 0x62, 0x63, 0x10] = .frameReady := by decide
theorem test_phase_lenMax : phase {} [0x07, 0xFF, 0xFF, 0xFF] = .awaitingPayload := by decide

/-! V11: FEED, DRAIN, EXTRACT. -/

theorem test_feed_appends :
    after (step (connAt .rx [0x08, 0x00] { rx := some (.chunk [0x00, 0x03, 0x61]) })) (fun t => (t.seq, t.buf, t.buflen))
      = some (.drain, [0x08, 0x00, 0x00, 0x03, 0x61], 5) := by decide

/-- P5 with BUF_CAP = 8: six bytes and three more do not fit. -/
theorem test_feed_overflow :
    after (step { connAt .rx [0x08, 0x00, 0x00, 0x0A, 0x61, 0x62] { rx := some (.chunk [0x63, 0x64, 0x65]) } with
        par := { bufCap := 8 } }) (fun t => (t.cs, t.faultCode, t.buf))
      = some (.halted, .bufOverflow, [0x08, 0x00, 0x00, 0x0A, 0x61, 0x62]) := by decide

/-- The boundary of P5: six bytes and two more fit exactly. -/
theorem test_feed_exact_fit :
    after (step { connAt .rx [0x08, 0x00, 0x00, 0x0A, 0x61, 0x62] { rx := some (.chunk [0x63, 0x64]) } with
        par := { bufCap := 8 } }) (fun t => (t.cs, t.buf.length)) = some (.conn, 8) := by decide

theorem test_drain_stalls :
    after (step (connAt .drain [0x08, 0x00, 0x00, 0x03, 0x61] {})) (fun t => (t.seq, t.buf.length)) = some (.rx, 5) := by decide

theorem test_extract_upper_leaves_the_rest :
    after (step (connAt .drain [0x08, 0x00, 0x00, 0x01, 0x61, 0x10, 0x00] { xqReady := true }))
      (fun t => (t.seq, t.buf, t.buflen)) = some (.xfWait, [0x10, 0x00], 2) := by decide
theorem test_extract_upper_latches :
    after (step (connAt .drain [0x08, 0x00, 0x00, 0x01, 0x61, 0x10, 0x00] { xqReady := true }))
      (fun t => (t.curOp, t.curLen, t.curPay)) = some (1, 1, [0x61]) := by decide

/-- The corner case of R162: the TU takes nothing, the frame stays. -/
theorem test_extract_waits_for_tu :
    after (step (connAt .drain [0x08, 0x00, 0x00, 0x01, 0x61] {})) (fun t => (t.seq, t.buf.length)) = some (.drain, 5) := by
  decide

/-! V13: the requests and the error response, one step each. -/

theorem test_lower_requests :
    after (exec (.lower [0x41]) (connAt .drain [0x10, 0x00, 0x00, 0x01, 0x41] { xqReady := true })) (fun t => t.hist)
      = some [.xreq 2 [0x41], .extracted 2 [0x41]] := by decide
theorem test_reverse_requests :
    after (exec (.reverse []) (connAt .drain [0x20, 0x00, 0x00, 0x00] { xqReady := true })) (fun t => t.hist)
      = some [.xreq 4 [], .extracted 4 []] := by decide
theorem test_shuffle_requests :
    after (exec (.shuffle [0x61]) (connAt .drain [0x40, 0x00, 0x00, 0x01, 0x61] { xqReady := true })) (fun t => t.curOp)
      = some 8 := by decide
theorem test_randomize_requests :
    after (exec (.randomize [0x61]) (connAt .drain [0x80, 0x00, 0x00, 0x01, 0x61] { xqReady := true })) (fun t => t.curOp)
      = some 16 := by decide
theorem test_unsupOp31_error :
    after (step (connAt .drain [0xF8, 0x00, 0x00, 0x01, 0x78] {})) (fun t => (t.seq, t.buf, t.txq, t.hist))
      = some (.tx, [], [0x00, 0x00, 0x00, 0x05, 0x65, 0x72, 0x72, 0x6F, 0x72], [.extracted 31 [0x78]]) := by decide
theorem test_unsupOp17_illFormed_payload :
    after (step (connAt .drain [0x88, 0x00, 0x00, 0x02, 0xFF, 0xFE] {})) (fun t => (t.cs, t.txq.length)) = some (.conn, 9) := by
  decide

/-! V12: the framer. -/

theorem test_frame_empty : frame {} [] = [0x00, 0x00, 0x00, 0x00] := by decide
theorem test_frame_ABC : frame {} [0x41, 0x42, 0x43] = [0x00, 0x00, 0x00, 0x03, 0x41, 0x42, 0x43] := by decide
theorem test_frame_65536 (r : Bytes) (h : r.length = 65536) : (frame {} r).take 4 = [0x00, 0x01, 0x00, 0x00] := by
  simp [frame, beBytes, Config.hdrBytesDefault, Config.rlenBitsDefault, h]

/-! V14 to V17: accept, close, answers, writes, stop, faults, reset. -/

theorem test_accept :
    after (step { State.reset with env := [{ acc := true }] }) (fun t => (t.cs, t.seq, t.buf, t.hist))
      = some (.conn, .rx, [], [.evtOpen, .accepted]) := by decide
theorem test_accept_not_ready :
    after (step (connAt .rx [] { acc := true })) (fun t => (t.cs, t.seq, t.hist)) = some (.conn, .rx, []) := by decide
theorem test_fin : after (step (connAt .rx [0x08, 0x00] { rx := some .fin })) (fun t => (t.cs, t.buf)) = some (.closed, [0x08, 0x00]) := by
  decide
theorem test_fin_waits_outside_rx :
    after (step (connAt .xfWait [] { rx := some .fin })) (fun t => (t.cs, t.seq)) = some (.conn, .xfWait) := by decide
theorem test_teardown :
    after (step { connAt .rx [0x08, 0x00] {} with cs := .closed }) (fun t => (t.cs, t.buf, t.hist))
      = some (.listen, [], [.evtClose]) := by decide
theorem test_teardown_after_stop :
    after (step { connAt .rx [] {} with cs := .closed, stopReq := true }) (fun t => (t.cs, t.hist))
      = some (.stopped, [.evtStop, .evtClose]) := by decide
theorem test_xfDone_empty :
    after (step (connAt .xfWait [] { xr := some (.ok []) })) (fun t => (t.seq, t.txq)) = some (.tx, [0, 0, 0, 0]) := by decide
theorem test_xfFail : after (step (connAt .xfWait [0x08] { xr := some .fail })) (fun t => (t.cs, t.txq)) = some (.closed, []) := by
  decide
theorem test_write_last_byte :
    after (step { connAt .tx [] { tx := .accept } with txq := [0x41] }) (fun t => (t.seq, t.txq, t.hist))
      = some (.drain, [], [.txByte 0x41]) := by decide
theorem test_write_first_byte :
    after (step { connAt .tx [] { tx := .accept } with txq := [0x00, 0x41] }) (fun t => (t.seq, t.txq))
      = some (.tx, [0x41]) := by decide
theorem test_terr :
    after (step { connAt .tx [0x08] { tx := .err } with txq := [0x03, 0x41] }) (fun t => (t.cs, t.txq, t.hist))
      = some (.closed, [0x03, 0x41], [.txErr]) := by decide
theorem test_stop_immediate :
    after (step { connAt .xfWait [0x08] { stop := true, xr := some (.ok []) } with curPay := [0x61] })
      (fun t => (t.cs, t.stopReq, t.buf, t.curPay, t.hist)) = some (.stopped, true, [], [], [.evtStop]) := by decide
theorem test_stop_afterConnection :
    after (step { connAt .xfWait [0x08] { stop := true } with par := { stopPolicy := .afterConnection } })
      (fun t => (t.cs, t.seq, t.stopReq, t.buf, t.hist)) = some (.conn, .xfWait, true, [0x08], []) := by decide
theorem test_rst_beats_stop :
    after (step (connAt .rx [0x08] { rst := true, stop := true })) (fun t => (t.cs, t.stopReq, t.buf))
      = some (.listen, false, []) := by decide
theorem test_halted_ignores_stop :
    after (step { connAt .rx [] { stop := true, acc := true } with cs := .halted, faultCode := .bufOverflow })
      (fun t => (t.cs, t.stopReq, t.faultCode)) = some (.halted, false, .bufOverflow) := by decide
theorem test_rst_leaves_halted :
    after (step { connAt .rx [] { rst := true } with cs := .halted, faultCode := .bufOverflow })
      (fun t => (statusCs t, faultLevel t)) = some (0, 0) := by decide

/-- V17: a result of 2^32 bytes faults, nothing staged. -/
theorem test_rspTooLong (s : State) (hp : s.par = {}) (r : Bytes) (h : r.length = 4294967296) :
    xfDone r s = raiseFault .rspTooLong s := by
  simp [xfDone, hp, Config.rlenMaxDefault, h]

/-- The boundary of V17: 2^32 - 1 bytes do not. -/
theorem test_longest_result_is_staged (s : State) (hp : s.par = {}) (r : Bytes) (h : r.length = 4294967295) :
    (xfDone r s).seq = .tx := by
  simp [xfDone, hp, Config.rlenMaxDefault, h]

/-- V11: the largest buffer a conforming stream can need fits the default capacity exactly. -/
theorem test_largest_buffer_fits (s : State) (hp : s.par = {}) (hb : s.buf.length = 134217730) (d : Bytes)
    (hd : d.length = 1024) : (feed d s).seq = .drain := by
  simp [feed, hp, hb, hd, Config.bufCapDefault]

/-! R5: an offer FR does not take stands in the next step, before the offers to come; an answer stands while its request is outstanding. -/

theorem test_untaken_chunk_stands :
    after (step { connAt .drain [0x08] {} with env := [{ rx := some (.chunk [0x00]) }, { rx := some .fin, stop := true }] })
      (fun t => t.env) = some [{ rx := some (.chunk [0x00]), stop := true }, { rx := some .fin }] := by decide
theorem test_taken_chunk_is_gone :
    after (step { connAt .rx [0x08] {} with env := [{ rx := some (.chunk [0x00]) }, { rx := some .fin }] })
      (fun t => t.env) = some [{ rx := some .fin }] := by decide
theorem test_answer_stands_over_a_stop :
    after (step { connAt .xfWait [] { stop := true, xr := some .fail } with par := { stopPolicy := .afterConnection } })
      (fun t => (t.cs, t.seq, t.env)) = some (.conn, .xfWait, [{ xr := some .fail }]) := by decide
/-- R228 and the table of V15: an answer to no outstanding request has no move, now or later. -/
theorem test_early_answer_does_not_stand :
    after (step (connAt .drain [0x08, 0x00, 0x00, 0x00] { xqReady := true, xr := some .fail, acc := true, rx := some .fin }))
      (fun t => (t.seq, t.env)) = some (.xfWait, [{ acc := true, rx := some .fin }]) := by decide

/-! Streams and systems. -/

/-- P2's rule: a line FR is not ready for stays, and FR drains on. -/
theorem test_streamStep_holds_the_line :
    (streamStep [.fin] (connAt .drain [0x08] {})).1 = [.fin] := by decide
theorem test_streamStep_takes_the_line : (streamStep [.fin] (connAt .rx [0x08] {})).1 = [] := by decide

theorem test_system_accept_is_one_instances :
    (match systemStep { System.reset 2 with script := [.inst 1 { acc := true }] } with
      | .next y => y.insts.map statusCs
      | .fault _ => []
      | .refused _ => []) = [0, 1] := by decide
theorem test_system_stop_reaches_all :
    (match systemStep { System.reset 2 with script := [.host false true] } with
      | .next y => y.insts.map statusCs
      | .fault _ => []
      | .refused _ => []) = [3, 3] := by decide

/-! The transform unit: UTF-8 of U+00E9 (R113), V7 and V8. -/

theorem test_utf8_eAcute : utf8Char (Char.ofNat 0xE9) = [0xC3, 0xA9] := by decide
theorem test_mutation_drops_and_repeats : Mutation ['a', 'b'] ['b', 'b'] := .inl ⟨[0, 2], rfl, ⟨2, by simp⟩, rfl⟩

/-! Witnesses: for every statement with hypotheses, states and operands that meet them, clause by clause. -/

theorem witness_DecodeOfEncode :
    (Instr.reverse [0x61]).WellFormed {} ∧ (Instr.reverse [0x61]).WellFormed narrow ∧ narrow.FormatOk := by decide
theorem witness_EncodeHeaderRefusesOutOfRange :
    ((31 < 32 ∧ 134217727 < 2 ^ 27) ∧ ¬ (32 < 32 ∧ 0 < 2 ^ 27)) ∧ ¬ (0 < 32 ∧ 134217728 < 2 ^ 27) ∧
      (31 < 2 ^ narrow.opBits ∧ 2047 < 2 ^ narrow.lenBits) ∧ ¬ (0 < 2 ^ narrow.opBits ∧ 2048 < 2 ^ narrow.lenBits) := by decide
/-- For the statements about headers: the largest of each format. -/
theorem witness_headers :
    0xFFFFFFFF < 2 ^ 32 ∧ 0xFFFF < 2 ^ (narrow.opBits + narrow.lenBits) ∧ 0xFFFF < 2 ^ (8 * narrow.hdrBytes) ∧
      headAt narrow [0xFF, 0xFF] = some 0xFFFF ∧ ([0xFF, 0xFF] : Bytes).length = narrow.hdrBytes := by decide
theorem witness_short_bytes :
    ([0x08, 0x00, 0x00] : Bytes).length < 4 ∧ ([] : Bytes).length < 4 ∧ ([0x08] : Bytes).length < narrow.hdrBytes := by decide
theorem witness_EncodeOfDecode :
    decode {} [0x20, 0x00, 0x00, 0x00, 0x08] = .ok (.reverse [], [0x08]) ∧ ({} : Params).FormatOk := by decide

theorem witness_SupportedFrameIsRequested :
    let s := connAt .drain [0x08, 0x00, 0x00, 0x00] { xqReady := true }
    let u := connAt .drain [0x08, 0x00, 0x00, 0x00] {}
    (Instr.upper []).op ∈ s.par.validOps ∧ s.pins.xqReady = true ∧ u.pins.xqReady = false := by decide
theorem witness_UnsupportedFrameStagesError :
    (Instr.unsupOp3 []).op ∉ (connAt .drain [0x18, 0x00, 0x00, 0x00] {}).par.validOps := by decide
theorem witness_FrameRunLeavesTheRest_taken :
    (after (exec (.upper []) (connAt .drain [0x08, 0x00, 0x00, 0x00] { xqReady := true })) (·.seq)) = some .xfWait ∧
      (Instr.upper []).op ∈ State.reset.par.validOps := by decide
theorem witness_FrameRunLeavesTheRest_unsupported :
    (after (exec (.unsupOp3 []) (connAt .drain [0x18, 0x00, 0x00, 0x00] {})) (·.seq)) = some .tx ∧
      (Instr.unsupOp3 []).op ∉ State.reset.par.validOps := by decide
theorem witness_FrameRunLeavesTheRest_waits :
    (after (exec (.upper []) (connAt .drain [0x08, 0x00, 0x00, 0x00] {})) (·.seq)) = some .drain := by decide

/-- For the statements about (CONN, DRAIN), with a supported frame, the TU ready or not, an unsupported one, and none. -/
theorem witness_drain :
    let s := connAt .drain [0x08, 0x00, 0x00, 0x01, 0x61] { xqReady := true }
    pointEnabled s = true ∧ s.cs = .conn ∧ s.seq = .drain ∧ decode s.par s.buf = .ok (.upper [0x61], []) ∧
      phase s.par s.buf = .frameReady ∧ s.pins.xqReady = true := by decide
theorem witness_drain_tuBusy :
    let s := connAt .drain [0x08, 0x00, 0x00, 0x01, 0x61] {}
    pointEnabled s = true ∧ phase s.par s.buf = .frameReady ∧ s.pins.xqReady = false := by decide
theorem witness_drain_unsupported :
    let s := connAt .drain [0x00, 0x00, 0x00, 0x00] {}
    pointEnabled s = true ∧ decode s.par s.buf = .ok (.unsupOp0 [], []) ∧ classify s.par 0 = .unsupported := by decide
theorem witness_drain_none :
    let s := connAt .drain [0x08, 0x00, 0x00] {}
    pointEnabled s = true ∧ s.cs = .conn ∧ s.seq = .drain ∧ phase s.par s.buf ≠ .frameReady := by decide

theorem witness_AcceptOpensAConnection :
    let s : State := { State.reset with env := [{ acc := true }] }
    pointEnabled s = true ∧ s.cs = .listen ∧ s.pins.acc = true := by decide
theorem witness_unready : (connAt .drain [] { acc := true }).cs ≠ .listen ∧
    ¬ ((connAt .drain [] {}).cs = .conn ∧ (connAt .drain [] {}).seq = .rx) ∧
    ¬ ((connAt .rx [] {}).cs = .conn ∧ (connAt .rx [] {}).seq = .xfWait) ∧
    ¬ ((connAt .rx [] {}).cs = .conn ∧ (connAt .rx [] {}).seq = .tx) := by decide
theorem witness_UnreadyChannelsAreNotRead :
    let s := connAt .rx [] { acc := true, xr := some .fail, tx := .accept, xqReady := true }
    s.env = s.pins :: [] ∧ accReady s = false ∧ rxReady (connAt .tx [] {}) = false ∧ xrReady s = false ∧
      txOffer s = none ∧ xqOffer s = none := by decide
theorem witness_TransformFailureCloses_unready :
    let s := connAt .rx [] { xr := some .fail }
    s.env = [{ xr := some .fail }] ∧ ¬ (s.cs = .conn ∧ s.seq = .xfWait) := by decide

/-- Chunks of one byte and of CHUNK_MAX bytes, fitting and not. -/
theorem witness_FeedAppendsOrFaults :
    let s : State := { connAt .rx [0x08] { rx := some (.chunk [0x61]) } with par := { bufCap := 2, chunkMax := 2 } }
    let u : State := { connAt .rx [0x08] { rx := some (.chunk [0x61, 0x62]) } with par := { bufCap := 2, chunkMax := 2 } }
    pointEnabled s = true ∧ pointEnabled u = true ∧ s.seq = .rx ∧ ¬ 1 + 1 > s.par.bufCap ∧ 1 + 2 > u.par.bufCap ∧
      2 ≤ u.par.chunkMax := by decide
theorem witness_NonconformingChunkIsRefused :
    let s := connAt .rx [] { rx := some (.chunk []) }
    let u : State := { connAt .rx [] { rx := some (.chunk [0x61, 0x62]) } with par := { chunkMax := 1 } }
    pointEnabled s = true ∧ rxReady s = true ∧ pointEnabled u = true ∧ u.par.chunkMax < 2 ∧
      rxReady (connAt .tx [] { rx := some (.chunk []) }) = false := by decide
theorem test_nonconforming_refused :
    (match step (connAt .rx [] { rx := some (.chunk []) }) with
      | .next _ => none
      | .fault _ => none
      | .refused r => some r) = some Refusal.nonconformingChunk := by decide

theorem witness_xfWait :
    let s := connAt .xfWait [] { xr := some (.ok [0x41]) }
    let u := connAt .xfWait [] { xr := some .fail }
    pointEnabled s = true ∧ s.cs = .conn ∧ s.seq = .xfWait ∧ s.pins.xr = some (.ok [0x41]) ∧
      pointEnabled u = true ∧ u.pins.xr = some .fail := by decide
theorem witness_tx :
    let s : State := { connAt .tx [] { tx := .accept } with txq := [0x41] }
    let u : State := { connAt .tx [] { tx := .err } with txq := [0x41] }
    let v : State := { connAt .tx [] {} with txq := [0x41] }
    pointEnabled s = true ∧ s.txq = 0x41 :: [] ∧ s.pins.tx = .accept ∧ u.pins.tx = .err ∧ v.pins.tx = .hold ∧
      pointEnabled u = true ∧ pointEnabled v = true := by decide
/-- For the clauses about the consumer: it accepts where FR is not in TX; and in TX it does not accept. -/
theorem witness_WriteMovesOneByte :
    let s := connAt .rx [] { tx := .accept }
    let v : State := { connAt .tx [] {} with txq := [0x41] }
    (s.env = [s.pins] ∧ ¬ (s.cs = .conn ∧ s.seq = .tx) ∧ s.pins.tx = .accept) ∧ v.pins.tx ≠ .accept ∧
      after (step v) (fun t => t.hist) = some [] := by decide
theorem witness_PeerCloseCloses :
    pointEnabled (connAt .rx [0x08] { rx := some .fin }) = true ∧
      pointEnabled (connAt .rx [] { rx := some .rerr }) = true := by decide
theorem witness_TeardownReturnsToListen :
    pointEnabled { connAt .rx [0x08] {} with cs := .closed } = true ∧
      pointEnabled { connAt .rx [] {} with cs := .closed, stopReq := true } = true := by decide
theorem witness_FrameIsLengthThenBytes :
    ([] : Bytes).length ≤ 4294967295 ∧ (∃ r : Bytes, r.length = 4294967295) ∧ narrow.FormatOk ∧ narrow.ResponsesFit ∧
      ∃ r : Bytes, r.length = narrow.rlenMax := ⟨by decide, exists_bytes _, by decide, by decide, exists_bytes _⟩

theorem witness_ResetStep : (connAt .tx [] { rst := true, stop := true }).pins.rst = true := by decide
theorem witness_ResetStep_only :
    let s : State := { connAt .rx [] { acc := true } with cs := .halted, faultCode := .bufOverflow }
    s.pins.rst = false ∧ after (step s) (fun t => t.cs) = some .halted := by decide
theorem witness_StopActsByPolicy :
    let s := connAt .rx [] { stop := true }
    s.pins.rst = false ∧ s.pins.stop = true ∧ s.stopReq = false ∧ s.cs = .conn ∧ s.par.stopPolicy = .immediate ∧
      ({ s with par := { stopPolicy := .afterConnection } } : State).par.stopPolicy ≠ .immediate := by decide
theorem witness_StopActsByPolicy_stopped :
    ({ connAt .rx [] { stop := true } with cs := .stopped } : State).pins.rst = false := by decide
theorem witness_StopIsTakenOnce :
    let s := connAt .rx [] { stop := true }
    ({ s with stopReq := true } : State).stopReq = true ∧ ({ s with cs := .stopped } : State).cs = .stopped ∧
      s.env = { stop := true } :: [] := by decide
theorem witness_StopIsTakenOnce_taken :
    after (step (connAt .rx [] { stop := true })) (fun t => t.stopReq) = some true ∧
      after (step (connAt .rx [] {})) (fun t => t.stopReq) = some false := by decide
theorem witness_HaltedOnlyReset :
    ({ connAt .rx [] { stop := true } with cs := .halted } : State).pins.rst = false ∧
      ({ connAt .rx [] { rst := true } with cs := .halted } : State).pins.rst = true := by decide
/-- One state for each wait. -/
theorem witness_WaitsKeepTheState :
    let d := connAt .drain [0x08, 0x00, 0x00, 0x00] {}
    let x : State := { connAt .tx [] {} with txq := [0x41] }
    (State.reset.cs = .listen ∧ State.reset.pins.acc = false) ∧ (connAt .rx [] {}).pins.rx = none ∧
      (xqOffer d = some (1, []) ∧ d.pins.xqReady = false) ∧ (connAt .xfWait [] {}).pins.xr = none ∧
      (x.txq ≠ [] ∧ x.pins.tx = .hold) ∧ pointEnabled d = true ∧ pointEnabled x = true := by decide
theorem witness_FaultEntryIsPrecise :
    let s : State := { connAt .rx [0x08] { rx := some (.chunk [0x61]) } with par := { bufCap := 1 } }
    s.cs ≠ .halted ∧ after (step s) (fun t => (t.cs, t.faultCode)) = some (.halted, .bufOverflow) := by decide
theorem witness_FaultEntryIsPrecise_rspTooLong :
    let s : State := { connAt .xfWait [] { xr := some (.ok [0x41, 0x42]) } with par := { rlenMax := 1, errorText := [] } }
    s.cs ≠ .halted ∧ s.par.ResponsesFit ∧ after (step s) (fun t => (t.cs, t.faultCode)) = some (.halted, .rspTooLong) := by
  decide

/-- A step that answers a next state, for the statements whose only hypothesis it is. -/
theorem witness_next : ∃ t, step State.reset = .next t := ⟨_, rfl⟩

/-- A connection with two bytes received, for the statements about the invariants and the laws of its past. -/
def receiving : State :=
  { connAt .rx [0x08, 0x00] { rx := some (.chunk [0x00]) } with
    hist := [.chunk [0x08, 0x00], .evtOpen, .accepted] }

theorem witness_Inv : receiving.Inv := by constructor <;> decide
theorem witness_Inv_cs : receiving.cs = .conn ∧ receiving.seq = .rx ∧ receiving.faultCode ≠ .bufOverflow ∧
    receiving.par.Roomy ∧ receiving.par = {} ∧ (step receiving matches .next _) := by
  refine ⟨rfl, rfl, ?_, ?_, rfl, rfl⟩ <;> decide
theorem witness_ChunkOk : receiving.pins.ChunkOk receiving.par.chunkMax := by
  intro d h
  simp [receiving, connAt, State.pins] at h
  subst h
  decide
theorem witness_BufferLaw : BufferLaw receiving := fun _ => by decide
theorem witness_FramingLaw : FramingLaw receiving := ⟨by decide, fun _ => by decide⟩
theorem witness_ResponseLaw : ResponseLaw receiving := fun _ => by decide
/-- The same stream in two chunks: another history of the same bytes. -/
theorem witness_ChunkingIndependence :
    let t : State := { receiving with hist := [.chunk [0x00], .chunk [0x08], .evtOpen, .accepted] }
    FramingLaw t ∧ t.Inv ∧ t.cs = .conn ∧ t.seq = .rx ∧ receiving.par = t.par ∧ received t.hist = received receiving.hist ∧
      t.hist ≠ receiving.hist := by
  refine ⟨⟨by decide, fun _ => by decide⟩, by constructor <;> decide, rfl, rfl, rfl, by decide, by decide⟩
theorem witness_RequestLaw : RequestLaw receiving := by unfold RequestLaw; decide
theorem witness_EgressLaw : EgressLaw receiving := by unfold EgressLaw; decide

/-- The same in DRAIN, for the statement about the egress of a drained connection. -/
theorem witness_EgressLaw_drain :
    let s : State := { receiving with seq := .drain }
    s.Inv ∧ EgressLaw s ∧ s.cs = .conn ∧ s.seq = .drain := by
  refine ⟨by constructor <;> decide, by unfold EgressLaw; decide, rfl, rfl⟩

theorem witness_ResponseIsWrittenInFull :
    let s : State := { connAt .tx [] {} with txq := [0x41], env := List.replicate 1 { tx := .accept } ++ [] }
    s.cs = .conn ∧ s.seq = .tx ∧ s.txq ≠ [] ∧ s.env = List.replicate s.txq.length { tx := .accept } ++ [] := by decide
theorem witness_SupportedFrameEndToEnd :
    let s : State := { connAt .drain [0x08, 0x00, 0x00, 0x00] {} with
      env := { xqReady := true } :: { xr := some (.ok []) } :: (List.replicate (4 + 0) { tx := .accept } ++ []) }
    s.par.FormatOk ∧ s.cs = .conn ∧ s.seq = .drain ∧ headFrame s.par s.buf = .ok (1, [], []) ∧ 1 ∈ s.par.validOps ∧
      ([] : Bytes).length ≤ s.par.rlenMax := by decide
theorem witness_UnsupportedFrameEndToEnd :
    let s : State := { connAt .drain [0x00, 0x00, 0x00, 0x00] {} with
      env := { rx := some .fin } :: (List.replicate 9 { tx := .accept } ++ []) }
    s.par.FormatOk ∧ s.cs = .conn ∧ s.seq = .drain ∧ headFrame s.par s.buf = .ok (0, [], []) ∧
      0 ∉ s.par.validOps ∧ s.par.hdrBytes + s.par.errorText.length = 9 := by decide
/-- For the statement about offers: each stands at a point that does not take it, and FR's own two offers wait. -/
theorem witness_OffersStandUntilTaken :
    let s := connAt .xfWait [] { stop := true, acc := true, rx := some .fin, xr := some .fail }
    let d := connAt .drain [0x08, 0x00, 0x00, 0x00] {}
    let x : State := { connAt .tx [] {} with txq := [0x41] }
    (s.pins.acc = true ∧ s.pins.rx = some .fin ∧ s.pins.xr = some .fail) ∧
      (xrReady s = true ∧ pointEnabled s = false) ∧ xrReady d = false ∧
      (xqOffer d = some (1, []) ∧ d.pins.xqReady = false) ∧ txOffer x = some 0x41 ∧ x.pins.tx = .hold := by decide

/-! Runs in which the environment conforms in every step and meets its duties (R11): an idle one, one that accepts the one byte
offered, one that answers the one request outstanding, and one that takes a request and then answers it. -/

/-- The records `ps`, and then nothing. -/
def script (ps : List Pins) : Nat → Pins := recordAt ps

/-- A script's run stays where it has come to rest. -/
theorem drive_rests {ps : List Pins} {k : Nat} {s u : State} (hk : drive (script ps) k s = .next u) (hl : ps.length ≤ k)
    (hu : driveStep {} u = .next u) : ∀ n, k ≤ n → drive (script ps) n s = .next u := by
  intro n hn
  induction n, hn using Nat.le_induction with
  | base => exact hk
  | succ n hn ih =>
    have h : script ps n = {} := by simp [script, recordAt, List.getElem?_eq_none (hl.trans hn)]
    rw [drive_succ ih, h, hu]

/-- What a step of a run is known to show, seen in the state it is in. -/
theorem drive_shows {f : Nat → Pins} {n : Nat} {s t : State} {α : Type} {g : State → α} {a : α} (h : drive f n s = .next t)
    (e : after (drive f n s) g = some a) : g t = a := by
  rw [h] at e
  exact Option.some.inj e

/-- Nothing new is offered: that conforms in every state. -/
theorem quiet_conforms (tp : TuParams) (t : State) : Pins.Conforming tp t {} := by
  constructor <;> simp [Pins.ChunkOk]

theorem witness_duties_idle (tp : TuParams) :
    EgressDuty (script []) State.reset ∧ TuDuty (script []) State.reset ∧ ConformingRun tp (script []) State.reset := by
  have at_reset : ∀ n t, drive (script []) n State.reset = .next t → t = State.reset := fun n t h => by
    rw [drive_rests (k := 0) rfl le_rfl rfl n (Nat.zero_le n)] at h
    exact (Host.Outcome.next.inj h).symm
  refine ⟨fun n t h ht => ?_, ⟨fun n t h ht => ?_, fun n t h ht => ?_, fun n t h ht => (ht rfl).elim⟩,
    fun n t h => quiet_conforms tp t⟩ <;>
  · rw [at_reset n t h] at ht
    exact absurd ht (by decide)

/-- FR with one byte to write. -/
def writing : State := { connAt .tx [] {} with txq := [0x41], env := [] }

theorem witness_EgressDutyEndsTheWrite (tp : TuParams) :
    let f := script [{ tx := .accept }]
    HostQuiet f ∧ EgressDuty f writing ∧ ConformingRun tp f writing ∧ writing.cs = .conn ∧ writing.seq = .tx ∧
      writing.txq ≠ [] := by
  refine ⟨fun n => ?_, fun n t h ht => ?_, fun n t h => ?_, rfl, rfl, by decide⟩
  · cases n <;> exact ⟨rfl, rfl⟩
  · rcases n with _ | _ | n
    · exact ⟨0, le_rfl, Or.inl (by decide)⟩
    · have := drive_shows (g := fun t => (txOffer t).isSome) (a := false) h (by decide)
      simp_all
    · rw [drive_rests (k := 2) (u := { writing with seq := .rx, txq := [], hist := [.txByte 0x41] }) rfl
        (by decide) rfl (n + 2) (Nat.le_add_left 2 n)] at h
      cases h
      exact absurd ht (by decide)
  · rcases n with _ | n
    · cases h
      constructor <;> simp [script, recordAt, Pins.ChunkOk]
      decide
    · exact quiet_conforms tp t

/-- FR with the request `UPPER "a"` outstanding. -/
def requesting : State := { connAt .xfWait [] {} with curOp := 1, curLen := 1, curPay := [0x61], env := [] }

/-- A transform unit that answers its one request meets its duty, and it is this run's. -/
theorem witness_TuDutyEndsTheWaits_answer (tp : TuParams) :
    let f := script [{ xr := some .fail }]
    HostQuiet f ∧ TuDuty f requesting ∧ ConformingRun tp f requesting ∧ requesting.cs = .conn ∧
      requesting.seq = .xfWait := by
  have rest : ∀ n, drive (script [{ xr := some .fail }]) (n + 2) requesting =
      .next { requesting with cs := .listen, curPay := [], hist := [.evtClose, .xrspFail] } := fun n =>
    drive_rests (k := 2) rfl (by decide) rfl (n + 2) (Nat.le_add_left 2 n)
  refine ⟨fun n => ?_, ⟨fun n t h ht => ?_, fun n t h ht _ => ?_, fun n t h ht => ?_⟩, fun n t h => ?_, rfl, rfl⟩
  · cases n <;> exact ⟨rfl, rfl⟩
  · rcases n with _ | _ | n
    · cases h
      exact absurd ht (by decide)
    · have := drive_shows (g := fun t => (xqOffer t).isSome) (a := false) h (by decide)
      simp_all
    · rw [rest] at h
      cases h
      exact absurd ht (by decide)
  · rcases n with _ | _ | n
    · exact ⟨0, le_rfl, Or.inl (by decide)⟩
    · have := drive_shows (g := xrReady) (a := false) h (by decide)
      simp_all
    · rw [rest] at h
      cases h
      exact absurd ht (by decide)
  · rcases n with _ | n
    · cases h
      decide
    · exact absurd rfl ht
  · rcases n with _ | n
    · cases h
      constructor <;> simp [script, recordAt, Pins.ChunkOk, Admitted]
      all_goals decide
    · exact quiet_conforms tp t

/-- FR with the frame `UPPER "a"` to request. -/
def draining : State := { connAt .drain [0x08, 0x00, 0x00, 0x01, 0x61] {} with env := [] }

/-- A transform unit that takes its one request and answers it meets its duty. -/
theorem witness_TuDutyEndsTheWaits_take :
    let f := script [{ xqReady := true }, { xr := some .fail }]
    HostQuiet f ∧ TuDuty f draining ∧ draining.cs = .conn ∧ draining.seq = .drain ∧
      xqOffer draining = some (1, [0x61]) := by
  have rest : ∀ n, drive (script [{ xqReady := true }, { xr := some .fail }]) (n + 3) draining =
      .next { requesting with
        cs := .listen, curPay := []
        hist := [.evtClose, .xrspFail, .xreq 1 [0x61], .extracted 1 [0x61]] } := fun n =>
    drive_rests (k := 3) rfl (by decide) rfl (n + 3) (Nat.le_add_left 3 n)
  refine ⟨fun n => ?_, ⟨fun n t h ht => ?_, fun n t h ht _ => ?_, fun n t h ht => ?_⟩, rfl, rfl, by decide⟩
  · rcases n with _ | _ | n <;> exact ⟨rfl, rfl⟩
  · rcases n with _ | _ | _ | n
    · exact ⟨0, le_rfl, Or.inl (by decide)⟩
    · have := drive_shows (g := fun t => (xqOffer t).isSome) (a := false) h (by decide)
      simp_all
    · have := drive_shows (g := fun t => (xqOffer t).isSome) (a := false) h (by decide)
      simp_all
    · rw [rest] at h
      cases h
      exact absurd ht (by decide)
  · rcases n with _ | _ | _ | n
    · exact ⟨1, Nat.zero_le 1, Or.inl (by decide)⟩
    · exact ⟨1, le_rfl, Or.inl (by decide)⟩
    · have := drive_shows (g := xrReady) (a := false) h (by decide)
      simp_all
    · rw [rest] at h
      cases h
      exact absurd ht (by decide)
  · rcases n with _ | _ | n
    · exact absurd rfl ht
    · exact Prod.mk.inj (drive_shows (g := fun t => (xrReady t, t.pins.xr)) (a := (true, none)) h (by decide))
    · exact absurd rfl ht

/-- Open parameters of the transform unit that meet the contract's constraints, whatever the repair chosen. -/
theorem witness_TuParams : ∃ tp : TuParams, tp.Ok := by
  obtain ⟨f, hf⟩ := repairExists
  exact ⟨{ repair := f
           upperMap := fun c => if c = 'a' then ['A'] else if c = 'b' then ['B'] else if c = 'c' then ['C'] else [c]
           lowerMap := fun c => if c = 'A' then ['a'] else if c = 'C' then ['c'] else [c]
           randomizeEmpty := fun _ => True },
    hf, by simp, by simp⟩
theorem witness_PinnedLettersForceTheCase :
    ∃ tp : TuParams, tp.Ok ∧ (∃ r, Admitted {} tp 1 [0x61, 0x43] (.ok r)) ∧ ∃ r, Admitted {} tp 2 [0x41, 0x62] (.ok r) := by
  obtain ⟨tp, h⟩ := witness_TuParams
  exact ⟨tp, h, ⟨_, rfl, rfl⟩, ⟨_, rfl, rfl⟩⟩
theorem witness_ReverseAndShuffleKeepLength :
    ∃ tp : TuParams, tp.Ok ∧ (∃ r, Admitted {} tp 4 (utf8 ['a', 'b']) (.ok r)) ∧
      (∃ r, Admitted {} tp 8 (utf8 ['a', 'b']) (.ok r)) ∧ ∃ r, Admitted {} tp 8 [] (.ok r) := by
  obtain ⟨tp, h⟩ := witness_TuParams
  exact ⟨tp, h, ⟨_, rfl, rfl⟩, ⟨_, rfl, _, List.Perm.refl _, rfl⟩, ⟨_, rfl, _, List.Perm.refl _, rfl⟩⟩
theorem witness_RandomizeIsNeverEmpty :
    ∃ tp : TuParams, tp.Ok ∧ tp.repair (utf8 ['a']) ≠ [] ∧ ∃ r, Admitted {} tp 16 (utf8 ['a']) (.ok r) := by
  obtain ⟨tp, h⟩ := witness_TuParams
  have e : tp.repair (utf8 ['a']) = ['a'] := h.repair.exact ['a']
  exact ⟨tp, h, by rw [e]; decide, utf8 ['a'], rfl, .inr ⟨['a'], by rw [e]; exact .inr ⟨'a', rfl, rfl⟩, rfl⟩⟩
/-- An empty text has the answers RANDOMIZE_EMPTY admits. -/
theorem test_randomize_empty : ∃ tp : TuParams, tp.Ok ∧ Admitted {} tp 16 [] (.ok [0x61]) := by
  obtain ⟨f, hf⟩ := repairExists
  obtain ⟨tp, h⟩ := witness_TuParams
  exact ⟨{ tp with randomizeEmpty := fun _ => True }, ⟨h.repair, h.upper, h.lower⟩, rfl, .inl ⟨h.repair.exact [], trivial⟩⟩
theorem witness_IllFormedByteIsDropped :
    (∃ tp : TuParams, tp.Ok ∧ (∃ r, Admitted {} tp 4 [0x61, 0xFF, 0x62] (.ok r)) ∧
      ∃ r, Admitted {} tp 1 [0x61, 0xFF, 0x62] (.ok r)) ∧
    (∀ b ∈ ([0x61, 0xFF, 0x62] : Bytes), b.toNat < 0x80 ∨ b = 0xFF) ∧
    ∀ b ∈ ([0x61, 0xFF, 0x62] : Bytes), b ∈ ([0x61, 0x62, 0x63, 0x41, 0x43, 0xFF] : Bytes) := by
  obtain ⟨tp, h⟩ := witness_TuParams
  exact ⟨⟨tp, h, ⟨_, rfl, rfl⟩, ⟨_, rfl, rfl⟩⟩, by decide, by decide⟩

theorem witness_SystemsShareNothing :
    (systemStep { System.reset 2 with script := [.inst 1 { acc := true }] } matches .next _) ∧
      ({ System.reset 2 with script := [.host true true] } : System).script = .host true true :: [] ∧
      ({ System.reset 2 with script := [.host false true] } : System).script = .host false true :: [] := by
  refine ⟨rfl, rfl, rfl⟩
/-- One instance of each kind that the clause about `stop` tells apart. -/
theorem witness_SystemsShareNothing_stop :
    let y : System :=
      { insts := [State.reset, { connAt .rx [] {} with par := { stopPolicy := .afterConnection } },
          { connAt .rx [] {} with cs := .halted, faultCode := .bufOverflow }],
        script := [.host false true] }
    (match systemStep y with
      | .next z => z.insts.map fun s => (s.cs, s.stopReq)
      | .fault _ => []
      | .refused _ => []) = [(.stopped, true), (.conn, true), (.halted, false)] := by decide

end Sys2Proof.Tests
end

section
/-! O42. The invariant of the fields: each operation of the step table keeps it under the guard of its row, so each row does. -/

namespace Sys2Proof.Machine

variable {s t : State}

/-! The invariant speaks of neither the inputs nor the history. -/

/-- Inputs and history do not matter to the invariant. -/
theorem State.Inv.with_env_hist (h : s.Inv) (e : List Pins) (es : List Event) :
    State.Inv { s with env := e, hist := es } := { h with }

theorem State.Inv.tick (h : s.Inv) : s.tick.Inv := h.with_env_hist _ _

theorem State.Inv.emit (h : s.Inv) (e : Event) : (s.emit e).Inv := h.with_env_hist _ _

theorem State.Inv.hold (h : s.Inv) : s.hold.Inv := h.with_env_hist _ _

/-! What several operations share. -/

/-- An empty buffer holds no complete frame, since a header has a byte (R39). -/
theorem phase_nil_ne_frameReady {par : Params} (hf : par.FormatOk) : phase par [] ≠ .frameReady := by
  have hnone : headAt par [] = none := headAt_eq_none.mpr hf.1
  simp [phase, hnone]

/-- Only STOPPED holds a stop taken under IMMEDIATE. -/
theorem State.Inv.immediate_of_conn (h : s.Inv) (hc : s.cs = .conn) :
    s.par.stopPolicy = .immediate → s.stopReq = true → False := by
  intro hp hr
  have := h.immediate hp hr
  simp [hc] at this

/-- While CONN, nothing is staged outside TX (R36). -/
theorem State.Inv.txq_eq_nil (h : s.Inv) (hc : s.cs = .conn) (hq : s.seq ≠ .tx) : s.txq = [] := by
  by_contra hne
  exact hq ((h.staged hc).mp hne)

/-- While CONN, no fault is held (R37). -/
theorem State.Inv.fault_none (h : s.Inv) (hc : s.cs ≠ .halted) : s.faultCode = .none := h.fault.mpr hc

/-- A connection that ends keeps its fields until the teardown (R165 to R167, R169). -/
theorem State.Inv.close (h : s.Inv) (hc : s.cs = .conn) : State.Inv { s with cs := .closed } :=
  { h with
    fault := by simp [h.fault_none, hc]
    staged := by simp
    empty := by simp
    drained := by simp
    latched := by simp
    unlatched := by simp
    stopped := by simp
    listening := by simp
    immediate := fun hp hr => (h.immediate_of_conn hc hp hr).elim }

/-- Entering a fault from a connection changes the code and the connection state together (R192). -/
theorem State.Inv.raiseFault (h : s.Inv) (hc : s.cs = .conn) {c : FaultCode} (hn : c ≠ .none) :
    (raiseFault c s).Inv :=
  { h with
    fault := by simp [hn]
    staged := by simp
    empty := by simp
    drained := by simp
    latched := by simp
    unlatched := by simp
    stopped := by simp
    listening := by simp
    immediate := fun hp hr => (h.immediate_of_conn hc hp hr).elim }

/-- With its buffers cleared, FR may go to any state that is not a fault, when the stop bit agrees with it (R160, R168, R195). -/
theorem State.Inv.cleared (h : s.Inv) {c : ConnState} {q : SeqPoint} {b : Bool} (hf : s.cs ≠ .halted) (hc : c ≠ .halted)
    (hq : c = .conn → q = .rx) (hs : c = .stopped → b = true) (hl : c = .listen → b = false)
    (hi : s.par.stopPolicy = .immediate → b = true → c = .stopped) :
    State.Inv { clearBuffers s with cs := c, seq := q, stopReq := b } :=
  { h with
    bufBound := by simp
    counter := by simp
    fault := by simp [h.fault_none hf, hc]
    staged := by intro he; simp [hq he]
    stagedBound := by simp
    empty := by simp
    drained := by intro _ _; exact phase_nil_ne_frameReady h.format
    latched := by intro he; simp [hq he]
    unlatched := by simp
    stopped := hs
    listening := hl
    immediate := hi }

/-! The rows of the step table. -/

theorem State.Inv.takeReset (h : s.Inv) : (takeReset s).Inv :=
  { format := h.format
    counterFits := h.counterFits
    responsesFit := h.responsesFit
    bufBound := by simp
    counter := by simp
    opWidth := by simp
    lenWidth := by simp
    fault := by simp
    staged := by simp
    stagedBound := by simp
    empty := by simp
    drained := by simp
    latched := by simp
    unlatched := by simp
    stopped := by simp
    listening := by simp
    immediate := by simp }

/-- A stop is taken only where there is no fault; one that leaves the connection running sets the bit only (R194, R195). -/
theorem State.Inv.takeStop (h : s.Inv) (ht : stopTaken s = true) : (takeStop s).Inv := by
  obtain ⟨-, -, hr, hcs⟩ := stopTaken_spec ht
  have hf : s.cs ≠ .halted := by rintro he; simp [he] at hcs
  obtain ⟨-, he⟩ | ⟨hl, hp, he⟩ := takeStop_cases s
  · rw [he]
    exact (h.cleared hf (q := s.seq) (by simp) (by simp) (by simp) (by simp) (by simp)).emit _
  · rw [he]
    exact { h with
      stopped := by simp
      listening := fun hc => (hl hc).elim
      immediate := by simp [hp] }

theorem State.Inv.takeAccept (h : s.Inv) (hc : s.cs = .listen) : (takeAccept s).Inv :=
  have hr := h.listening hc
  ((h.cleared (c := .conn) (q := .rx) (b := s.stopReq) (by simp [hc]) (by simp) (by simp) (by simp) (by simp)
    (by simp [hr])).emit _).emit _

theorem State.Inv.teardown (h : s.Inv) (hc : s.cs = .closed) : (teardown s).Inv := by
  have hf : s.cs ≠ .halted := by simp [hc]
  obtain ⟨hr, he⟩ | ⟨hr, he⟩ := teardown_cases s
  · rw [he]
    exact ((h.cleared (c := .stopped) (q := s.seq) (b := s.stopReq) hf (by simp) (by simp) (by simp [hr]) (by simp)
      (by simp)).emit _).emit _
  · rw [he]
    exact (h.cleared (c := .listen) (q := s.seq) (b := s.stopReq) hf (by simp) (by simp) (by simp) (by simp [hr])
      (by simp [hr])).emit _

/-- A chunk is appended within the capacity, and the counter follows it (R32, R33, R141). -/
theorem State.Inv.feed (h : s.Inv) (hc : s.cs = .conn) (hq : s.seq = .rx) (d : Bytes) : (feed d s).Inv := by
  obtain ⟨-, he⟩ | ⟨hd, he⟩ := feed_cases d s
  · rw [he]
    exact h.raiseFault hc (by simp)
  · have hcount : countUp s.par.buflenBits d.length s.buflen = s.buf.length + d.length := by
      rw [countUp_eq (by have := h.counter; have := h.counterFits; omega), h.counter]
    have htx := h.txq_eq_nil hc (by simp [hq])
    have hpay := h.unlatched hc (by simp [hq])
    rw [he]
    refine State.Inv.emit (s := { memAppend d s with seq := .drain }) { h with
      bufBound := by simpa using hd
      counter := by simp [hcount]
      staged := by simp [htx]
      empty := by simp [hc]
      drained := by simp
      latched := by simp
      unlatched := by simp [hpay] } _

/-- Back to RX only when no complete frame is buffered (R41, R142). -/
theorem State.Inv.toRx (h : s.Inv) (hc : s.cs = .conn) (hq : s.seq = .drain) (hp : phase s.par s.buf ≠ .frameReady) :
    State.Inv { s with seq := .rx } :=
  { h with
    staged := by simp [h.txq_eq_nil hc (by simp [hq])]
    drained := fun _ _ => hp
    latched := by simp
    unlatched := by simp [h.unlatched hc (by simp [hq])] }

/-- A frame at the head of `buf` is dropped whole and the counter follows (R33, R143). -/
theorem State.Inv.latchFrame_counter (h : s.Inv) {op : Nat} {p r : Bytes} (hh : headFrame s.par s.buf = .ok (op, p, r)) :
    (latchFrame op p s).buflen = (latchFrame op p s).buf.length := by
  obtain ⟨-, -, -, -, -, hlen, -⟩ := headFrame_ok hh
  have hcount := countDown_eq (w := s.par.buflenBits) (n := s.par.hdrBytes + p.length) (c := s.buflen)
    (by rw [h.counter]; exact hlen) (by have := h.counter; have := h.bufBound; have := h.counterFits; omega)
  simpa [h.counter] using hcount

theorem State.Inv.unsup (h : s.Inv) (hc : s.cs = .conn) {op : Nat} {p r : Bytes}
    (hh : headFrame s.par s.buf = .ok (op, p, r)) : (dispatchUnsup (latchFrame op p s)).Inv :=
  { h with
    bufBound := (List.drop_sublist _ _).length_le.trans h.bufBound
    counter := h.latchFrame_counter hh
    opWidth := (headFrame_lt hh).1
    lenWidth := (headFrame_lt hh).2
    staged := by simp [frame_ne_nil h.format]
    stagedBound := by simpa using h.responsesFit.2
    empty := by simp [hc]
    drained := by simp
    latched := by simp
    unlatched := by simp }

theorem State.Inv.request (h : s.Inv) (hc : s.cs = .conn) (hq : s.seq = .drain) {op : Nat} {p r : Bytes}
    (hh : headFrame s.par s.buf = .ok (op, p, r)) (hi : classify s.par op = .supported) :
    (dispatchXf (latchFrame op p s)).Inv :=
  { h with
    bufBound := (List.drop_sublist _ _).length_le.trans h.bufBound
    counter := h.latchFrame_counter hh
    opWidth := (headFrame_lt hh).1
    lenWidth := (headFrame_lt hh).2
    staged := by simp [h.txq_eq_nil hc (by simp [hq])]
    empty := by simp [hc]
    drained := by simp
    latched := by simp [hi]
    unlatched := by simp }

/-- A result is staged within the bound, or faults (R36, R163). -/
theorem State.Inv.xfDone (h : s.Inv) (hc : s.cs = .conn) (r : Bytes) : (xfDone r s).Inv := by
  obtain ⟨-, he⟩ | ⟨hr, he⟩ := xfDone_cases r s
  · rw [he]
    exact h.raiseFault hc (by simp)
  · rw [he]
    exact State.Inv.emit (s := { s with txq := frame s.par r, curPay := [], seq := .tx }) { h with
      staged := by simp [frame_ne_nil h.format]
      stagedBound := by simpa using hr
      empty := by simp [hc]
      drained := by simp
      latched := by simp
      unlatched := by simp } _

/-- The last byte of a response leads back to DRAIN, the others stay in TX (R36, R164). -/
theorem State.Inv.writeByte (h : s.Inv) (hc : s.cs = .conn) (hq : s.seq = .tx) {b : Byte} {r : Bytes} (ht : s.txq = b :: r) :
    (writeByte b r s).Inv := by
  have hpay := h.unlatched hc (by simp [hq])
  have hbound := h.stagedBound
  rw [ht, List.length_cons] at hbound
  refine State.Inv.emit (s := { s with txq := r, seq := if r.isEmpty then .drain else .tx }) { h with
    staged := by cases r <;> simp
    stagedBound := by dsimp only; omega
    empty := by simp [hc]
    drained := by cases r <;> simp
    latched := by cases r <;> simp
    unlatched := by simp [hpay] } _

/-- Every row of the step table keeps the invariant. -/
theorem Move.inv (h : s.Inv) (m : Move s t) : t.Inv := by
  cases m with
  | reset => exact h.takeReset.tick
  | stop ht => exact (h.takeStop ht).tick
  | wait => exact h.tick
  | accept hc => exact (h.takeAccept hc).tick
  | feed hc hq d => exact (h.feed hc hq d).tick
  | fin hc => exact ((h.close hc).emit _).tick
  | rerr hc => exact ((h.close hc).emit _).tick
  | drained hc hq hp => exact (h.toRx hc hq hp).tick
  | unsup hc hq op p r hh => exact (h.unsup hc hh).tick
  | request hc hq op p r hh hi => exact (h.request hc hq hh hi).tick
  | done hc hq r => exact (h.xfDone hc r).tick
  | fail hc => exact ((h.close hc).emit _).tick
  | write hc hq b r ht => exact (h.writeByte hc hq ht).tick
  | txErr hc => exact ((h.close hc).emit _).tick
  | teardown hc => exact (h.teardown hc).tick

/-- Settles O42: a step is a row of the step table from the state in which untaken offers wait. -/
theorem invIsKept : Obligations.InvIsKept :=
  fun _ _ h hs => (step_move hs).inv h.hold

end Sys2Proof.Machine
end

section
/-! The layer over single steps that the statements below share: when FR is ready and what it offers, the control points by name,
how a step can stop, and what no step touches. With it O34, O43, O44 and O18. -/

namespace Sys2Proof.Machine

variable {s t : State}

/-! When FR is ready, and what it offers (R6 to R9). -/

theorem accReady_iff : accReady s = true ↔ s.cs = .listen := by simp [accReady]

theorem rxReady_iff : rxReady s = true ↔ s.cs = .conn ∧ s.seq = .rx := by simp [rxReady]

theorem xrReady_iff : xrReady s = true ↔ s.cs = .conn ∧ s.seq = .xfWait := by simp [xrReady]

theorem txOffer_eq_some {b : Byte} :
    txOffer s = some b ↔ s.cs = .conn ∧ s.seq = .tx ∧ ∃ r, s.txq = b :: r := by
  simp [txOffer, List.head?_eq_some_iff, and_assoc]

theorem xqOffer_eq_some {op : Nat} {p : Bytes} :
    xqOffer s = some (op, p) ↔ s.cs = .conn ∧ s.seq = .drain ∧
      ∃ r, headFrame s.par s.buf = .ok (op, p, r) ∧ classify s.par op = .supported := by
  unfold xqOffer
  split
  · rename_i hcq
    cases hh : headFrame s.par s.buf with
    | error e => simp
    | ok x =>
      obtain ⟨op', p', r'⟩ := x
      simp only [hcq, Except.ok.injEq, Prod.mk.injEq, Option.ite_none_right_eq_some, Option.some.injEq, true_and]
      constructor
      · rintro ⟨hi, rfl, rfl⟩
        exact ⟨r', ⟨rfl, rfl, rfl⟩, hi⟩
      · rintro ⟨r, ⟨rfl, rfl, rfl⟩, hi⟩
        exact ⟨hi, rfl, rfl⟩
  · rename_i hcq
    simp only [reduceCtorEq, false_iff]
    rintro ⟨hc, hq, -⟩
    exact hcq ⟨hc, hq⟩

/-! The control points by name (R174). -/

theorem pointStep_listen (hc : s.cs = .listen) : pointStep s = listenPoint s := by simp [pointStep, hc]
theorem pointStep_rx (hc : s.cs = .conn) (hq : s.seq = .rx) : pointStep s = rxPoint s := by simp [pointStep, hc, hq]
theorem pointStep_drain (hc : s.cs = .conn) (hq : s.seq = .drain) : pointStep s = drainPoint s := by
  simp [pointStep, hc, hq]
theorem pointStep_xfWait (hc : s.cs = .conn) (hq : s.seq = .xfWait) : pointStep s = xfWaitPoint s := by
  simp [pointStep, hc, hq]
theorem pointStep_tx (hc : s.cs = .conn) (hq : s.seq = .tx) : pointStep s = txPoint s := by simp [pointStep, hc, hq]
theorem pointStep_closed (hc : s.cs = .closed) : pointStep s = .next (teardown s).tick := by simp [pointStep, hc]
theorem pointStep_stopped (hc : s.cs = .stopped) : pointStep s = .next s.tick := by simp [pointStep, hc]
theorem pointStep_halted (hc : s.cs = .halted) : pointStep s = .next s.tick := by simp [pointStep, hc]

/-! How a step can stop. -/

/-- EXTRACT and its dispatch always answer a next state (R143). -/
theorem exists_extract_next (op : Nat) (p : Bytes) (s : State) : ∃ t, extract op p s = .next t := by
  unfold extract
  split
  · exact ⟨_, rfl⟩
  · split
    · exact ⟨_, rfl⟩
    · exact ⟨_, rfl⟩

theorem exists_drainPoint_next (s : State) : ∃ t, drainPoint s = .next t := by
  rw [drainPoint_eq]
  split
  · exact ⟨_, rfl⟩
  · exact exists_extract_next _ _ s

theorem exists_listenPoint_next (s : State) : ∃ t, listenPoint s = .next t := by
  unfold listenPoint
  split
  · exact ⟨_, rfl⟩
  · exact ⟨_, rfl⟩

theorem exists_xfWaitPoint_next (s : State) : ∃ t, xfWaitPoint s = .next t := by
  unfold xfWaitPoint
  split
  · exact ⟨_, rfl⟩
  · exact ⟨_, rfl⟩
  · exact ⟨_, rfl⟩

/-- RX refuses a chunk of a size that is not legal, and that only (log entry 8). -/
theorem rxPoint_cases (s : State) :
    (∃ t, rxPoint s = .next t) ∨ (rxPoint s = .refused .nonconformingChunk ∧ ¬ s.pins.ChunkOk s.par.chunkMax) := by
  unfold rxPoint
  split
  · exact .inl ⟨_, rfl⟩
  · rename_i d hd
    split
    · exact .inl ⟨_, rfl⟩
    · exact .inr ⟨rfl, fun hok => ‹¬ _› (hok d hd)⟩
  · exact .inl ⟨_, rfl⟩
  · exact .inl ⟨_, rfl⟩

/-- TX stops exactly with nothing staged (log entry 9). -/
theorem txPoint_cases (s : State) : (∃ t, txPoint s = .next t) ∨ (txPoint s = .fault .stagingEmpty ∧ s.txq = []) := by
  unfold txPoint
  split
  · exact .inr ⟨rfl, ‹_›⟩
  · split
    · exact .inl ⟨_, rfl⟩
    · exact .inl ⟨_, rfl⟩
    · exact .inl ⟨_, rfl⟩

/-- A control point answers a next state but for the model's two stops, each at its own point (log entries 8 and 9). -/
theorem pointStep_cases (s : State) :
    (∃ t, pointStep s = .next t) ∨
    (pointStep s = .refused .nonconformingChunk ∧ rxReady s = true ∧ ¬ s.pins.ChunkOk s.par.chunkMax) ∨
    (pointStep s = .fault .stagingEmpty ∧ s.cs = .conn ∧ s.seq = .tx ∧ s.txq = []) := by
  cases hc : s.cs with
  | listen => rw [pointStep_listen hc]; exact .inl (exists_listenPoint_next s)
  | conn =>
    cases hq : s.seq with
    | rx =>
      rw [pointStep_rx hc hq]
      exact (rxPoint_cases s).imp_right fun ⟨h, hn⟩ => .inl ⟨h, rxReady_iff.mpr ⟨hc, hq⟩, hn⟩
    | drain => rw [pointStep_drain hc hq]; exact .inl (exists_drainPoint_next s)
    | xfWait => rw [pointStep_xfWait hc hq]; exact .inl (exists_xfWaitPoint_next s)
    | tx =>
      rw [pointStep_tx hc hq]
      exact (txPoint_cases s).imp_right fun ⟨h, hn⟩ => .inr ⟨h, rfl, rfl, hn⟩
  | closed => exact .inl ⟨_, pointStep_closed hc⟩
  | stopped => exact .inl ⟨_, pointStep_stopped hc⟩
  | halted => exact .inl ⟨_, pointStep_halted hc⟩

/-- A reset or a stop always answers a next state, so a step stops only where its control point does. -/
theorem step_next_or_pointStep (s : State) : (∃ t, step s = .next t) ∨ step s = pointStep s.hold := by
  rw [step_eq]
  split
  · exact .inl ⟨_, rfl⟩
  · split
    · exact .inl ⟨_, rfl⟩
    · exact .inr rfl

/-- Settles O43: the invariant excludes the one stop, a legal chunk the other. -/
theorem conformingStepNeverStops : Obligations.ConformingStepNeverStops := by
  intro s hinv hchunk
  obtain hnext | heq := step_next_or_pointStep s
  · exact hnext
  · obtain ⟨t, h⟩ | ⟨-, -, hbad⟩ | ⟨-, hc, hq, ht⟩ := pointStep_cases s.hold
    · exact ⟨t, heq.trans h⟩
    · exact (hbad hchunk).elim
    · exact ((hinv.staged hc).mpr hq ht).elim

/-- Settles O18: RX reads the chunk and refuses it; no other control point ever refuses. -/
theorem nonconformingChunkIsRefused : Obligations.NonconformingChunkIsRefused := by
  intro s d he hd hsize
  rw [step_eq_pointStep he]
  constructor
  · intro href
    obtain ⟨t, h⟩ | ⟨-, hready, -⟩ | ⟨h, -⟩ := pointStep_cases s.hold
    · simp [h] at href
    · exact hready
    · simp [h] at href
  · intro hready
    obtain ⟨hc, hq⟩ := rxReady_iff.mp hready
    have hbad : ¬ (1 ≤ d.length ∧ d.length ≤ s.par.chunkMax) := by omega
    rw [pointStep_rx (s := s.hold) hc hq]
    simp [rxPoint, hd, hbad]

/-! What no step touches: the parameters, and of the inputs to come anything but by leaving offers standing. -/

@[simp] theorem feed_par (d : Bytes) (s : State) : (feed d s).par = s.par := by unfold feed; split <;> rfl
@[simp] theorem feed_env (d : Bytes) (s : State) : (feed d s).env = s.env := by unfold feed; split <;> rfl
@[simp] theorem xfDone_par (r : Bytes) (s : State) : (xfDone r s).par = s.par := by unfold xfDone; split <;> rfl
@[simp] theorem xfDone_env (r : Bytes) (s : State) : (xfDone r s).env = s.env := by unfold xfDone; split <;> rfl
@[simp] theorem teardown_par (s : State) : (teardown s).par = s.par := by unfold teardown; split <;> rfl
@[simp] theorem teardown_env (s : State) : (teardown s).env = s.env := by unfold teardown; split <;> rfl
@[simp] theorem takeStop_par (s : State) : (takeStop s).par = s.par := by unfold takeStop; split <;> rfl
@[simp] theorem takeStop_env (s : State) : (takeStop s).env = s.env := by unfold takeStop; split <;> rfl

/-- Every row leaves the parameters and spends the one record of its step. -/
theorem Move.par_env (m : Move s t) : t.par = s.par ∧ t.env = s.env.tail := by
  cases m with
  | stop => simp
  | feed => simp
  | done => simp
  | teardown => simp
  | _ => exact ⟨rfl, rfl⟩

theorem step_par (h : step s = .next t) : t.par = s.par := (step_move h).par_env.1

/-- After a step the offers left standing come before the records to come (R5). -/
theorem step_env (h : step s = .next t) : t.env = nextEnv s := (step_move h).par_env.2

/-- Settles O34: no row writes a parameter, and the reset state's are the defaults. -/
theorem parametersNeverChange : Obligations.ParametersNeverChange :=
  ⟨fun _ _ h => step_par h, rfl, rfl, rfl, rfl, rfl, rfl, rfl, rfl, rfl, rfl, rfl, rfl⟩

/-! O44. The buffer of a connection waiting in RX is shorter than the longest frame, so one more chunk fits (R41). -/

/-- A buffer that holds no complete frame is shorter than the longest frame (R39, R41). -/
theorem length_lt_of_phase_ne_frameReady {par : Params} {bs : Bytes} (hf : par.FormatOk) (h : phase par bs ≠ .frameReady) :
    bs.length < par.lenMax + par.hdrBytes := by
  obtain ⟨hpos, -, -, hmax⟩ := hf
  cases hh : headFrame par bs with
  | ok x => exact (h (phase_frameReady_iff.mpr ⟨_, _, _, hh⟩)).elim
  | error e =>
    obtain ⟨-, hlt⟩ | ⟨hd, -, -, hlt⟩ := headFrame_error hh
    · omega
    · have := (decodeHeader_lt par hd).2
      omega

theorem State.Inv.residue (h : s.Inv) (hc : s.cs = .conn) (hq : s.seq = .rx) :
    s.buf.length < s.par.lenMax + s.par.hdrBytes :=
  length_lt_of_phase_ne_frameReady h.format (h.drained hc hq)

/-- A legal chunk that arrives in RX fits a capacity that leaves room for it (R41). -/
theorem State.Inv.chunk_fits (h : s.Inv) (hroom : s.par.Roomy) (hc : s.cs = .conn) (hq : s.seq = .rx) {d : Bytes}
    (hd : d.length ≤ s.par.chunkMax) : s.buf.length + d.length ≤ s.par.bufCap := by
  have hres := h.residue hc hq
  simp only [Params.Roomy, Params.residueMax] at hroom
  omega

/-- With room for a legal chunk no row enters the overflow fault (R141, R191). -/
theorem Move.faultCode_ne_bufOverflow (m : Move s t) (h : s.Inv) (hroom : s.par.Roomy) (hf : s.faultCode ≠ .bufOverflow) :
    t.faultCode ≠ .bufOverflow := by
  cases m with
  | stop => obtain ⟨-, he⟩ | ⟨-, -, he⟩ := takeStop_cases s <;> simpa [he] using hf
  | feed hc hq d _ _ hm =>
    obtain ⟨hover, -⟩ | ⟨-, he⟩ := feed_cases d s
    · have := h.chunk_fits hroom hc hq hm
      omega
    · simpa [he] using hf
  | done _ _ r =>
    obtain ⟨-, he⟩ | ⟨-, he⟩ := xfDone_cases r s
    · simp [he]
    · simpa [he] using hf
  | teardown => obtain ⟨-, he⟩ | ⟨-, he⟩ := teardown_cases s <;> simpa [he] using hf
  | reset => simp
  | _ => exact hf

/-- Settles O44: in RX less than a longest frame is buffered, so under the capacity of R12 no chunk overflows. -/
theorem defaultCapacityNeverOverflows : Obligations.DefaultCapacityNeverOverflows := by
  refine ⟨by decide, fun s h => h.residue, fun s h hpar hc hq => ?_,
    fun s t h hroom hf hs => (step_move hs).faultCode_ne_bufOverflow h.hold hroom hf⟩
  have hres := h.residue hc hq
  simp only [hpar, Config.lenMaxDefault, Config.hdrBytesDefault] at hres
  omega

end Sys2Proof.Machine
end

section
/-! O37. What a step adds to the history, control point by control point: the transfers whose offer and readiness meet in it. -/

namespace Sys2Proof.Machine

variable {s t : State}

/-- The events `new` of a step from `s` to `t` are the handshakes of the step and its event pulses (R5 to R10). -/
def Handshakes (s t : State) (new : List Event) : Prop :=
  (.accepted ∈ new ↔ pointEnabled s = true ∧ accReady s = true ∧ s.pins.acc = true) ∧
  (∀ d, .chunk d ∈ new ↔ pointEnabled s = true ∧ rxReady s = true ∧ s.pins.rx = some (.chunk d) ∧
    s.buf.length + d.length ≤ s.par.bufCap) ∧
  (.fin ∈ new ↔ pointEnabled s = true ∧ rxReady s = true ∧ s.pins.rx = some .fin) ∧
  (.rerr ∈ new ↔ pointEnabled s = true ∧ rxReady s = true ∧ s.pins.rx = some .rerr) ∧
  (∀ op p, .xreq op p ∈ new ↔ pointEnabled s = true ∧ xqOffer s = some (op, p) ∧ s.pins.xqReady = true) ∧
  (∀ r, .xrspOk r ∈ new ↔ pointEnabled s = true ∧ xrReady s = true ∧ s.pins.xr = some (.ok r) ∧
    r.length ≤ s.par.rlenMax) ∧
  (.xrspFail ∈ new ↔ pointEnabled s = true ∧ xrReady s = true ∧ s.pins.xr = some .fail) ∧
  (∀ b, .txByte b ∈ new ↔ pointEnabled s = true ∧ txOffer s = some b ∧ s.pins.tx = .accept) ∧
  (.txErr ∈ new ↔ pointEnabled s = true ∧ (txOffer s).isSome = true ∧ s.pins.tx = .err) ∧
  (.evtOpen ∈ new ↔ .accepted ∈ new) ∧
  (.evtClose ∈ new ↔ pointEnabled s = true ∧ s.cs = .closed) ∧
  (.evtStop ∈ new ↔ s.cs ≠ .stopped ∧ t.cs = .stopped)

/-- What a step from `s` to `t` adds to the history are its handshakes. -/
def RecordsHandshakes (s t : State) : Prop := ∃ new, t.hist = new ++ s.hist ∧ Handshakes s t new

/-! FR is ready or offers on the channels of its control point only. -/

theorem channels_listen (hc : s.cs = .listen) :
    accReady s = true ∧ rxReady s = false ∧ xqOffer s = none ∧ xrReady s = false ∧ txOffer s = none := by
  simp [accReady, rxReady, xqOffer, xrReady, txOffer, hc]

theorem channels_rx (hc : s.cs = .conn) (hq : s.seq = .rx) :
    accReady s = false ∧ rxReady s = true ∧ xqOffer s = none ∧ xrReady s = false ∧ txOffer s = none := by
  simp [accReady, rxReady, xqOffer, xrReady, txOffer, hc, hq]

theorem channels_drain (hc : s.cs = .conn) (hq : s.seq = .drain) :
    accReady s = false ∧ rxReady s = false ∧ xrReady s = false ∧ txOffer s = none := by
  simp [accReady, rxReady, xrReady, txOffer, hc, hq]

theorem channels_xfWait (hc : s.cs = .conn) (hq : s.seq = .xfWait) :
    accReady s = false ∧ rxReady s = false ∧ xqOffer s = none ∧ xrReady s = true ∧ txOffer s = none := by
  simp [accReady, rxReady, xqOffer, xrReady, txOffer, hc, hq]

theorem channels_tx (hc : s.cs = .conn) (hq : s.seq = .tx) :
    accReady s = false ∧ rxReady s = false ∧ xqOffer s = none ∧ xrReady s = false ∧ txOffer s = s.txq.head? := by
  simp [accReady, rxReady, xqOffer, xrReady, txOffer, hc, hq]

theorem channels_other (hl : s.cs ≠ .listen) (hc : s.cs ≠ .conn) :
    accReady s = false ∧ rxReady s = false ∧ xqOffer s = none ∧ xrReady s = false ∧ txOffer s = none := by
  simp [accReady, rxReady, xqOffer, xrReady, txOffer, hl, hc]

/-! The control points. -/

theorem listenPoint_handshakes (he : pointEnabled s = true) (hc : s.cs = .listen) (h : listenPoint s = .next t) :
    RecordsHandshakes s t := by
  have hch := channels_listen hc
  unfold listenPoint at h
  split at h <;> cases h
  · exact ⟨[.evtOpen, .accepted], rfl, by simp [Handshakes, takeAccept, *]⟩
  · exact ⟨[], rfl, by simp [Handshakes, *]⟩

theorem rxPoint_handshakes (he : pointEnabled s = true) (hc : s.cs = .conn) (hq : s.seq = .rx) (h : rxPoint s = .next t) :
    RecordsHandshakes s t := by
  have hch := channels_rx hc hq
  unfold rxPoint at h
  split at h
  · cases h
    exact ⟨[], rfl, by simp [Handshakes, *]⟩
  · rename_i d hd
    split at h
    · cases h
      obtain ⟨hover, hfeed⟩ | ⟨hfits, hfeed⟩ := feed_cases d s
      · exact ⟨[], by simp [hfeed], by simp [Handshakes, *]⟩
      · refine ⟨[.chunk d], by simp [hfeed], ?_⟩
        have honly : ∀ d' : Bytes, d' = d ↔ d = d' ∧ s.buf.length + d'.length ≤ s.par.bufCap :=
          fun d' => ⟨by rintro rfl; exact ⟨rfl, hfits⟩, fun h => h.1.symm⟩
        simp [Handshakes, *]
    · cases h
  · cases h
    exact ⟨[.fin], rfl, by simp [Handshakes, peerFin, *]⟩
  · cases h
    exact ⟨[.rerr], rfl, by simp [Handshakes, peerErr, *]⟩

theorem drainPoint_handshakes (he : pointEnabled s = true) (hc : s.cs = .conn) (hq : s.seq = .drain)
    (h : drainPoint s = .next t) : RecordsHandshakes s t := by
  have hch := channels_drain hc hq
  rw [drainPoint_eq] at h
  split at h
  · rename_i e hh
    cases h
    have hxq : xqOffer s = none := by simp [xqOffer, hc, hq, hh]
    exact ⟨[], rfl, by simp [Handshakes, *]⟩
  · rename_i op p r hh
    obtain ⟨hi, rfl⟩ | ⟨hi, hr, rfl⟩ | ⟨hi, hr, rfl⟩ := extract_next h
    · have hxq : xqOffer s = none := by simp [xqOffer, hc, hq, hh, hi]
      exact ⟨[.extracted op p], rfl, by simp [Handshakes, *]⟩
    · have hxq : xqOffer s = some (op, p) := xqOffer_eq_some.mpr ⟨hc, hq, r, hh, hi⟩
      exact ⟨[.xreq op p, .extracted op p], rfl, by simp [Handshakes, @eq_comm Nat op, @eq_comm Bytes p, *]⟩
    · exact ⟨[], rfl, by simp [Handshakes, *]⟩

theorem xfWaitPoint_handshakes (he : pointEnabled s = true) (hc : s.cs = .conn) (hq : s.seq = .xfWait)
    (h : xfWaitPoint s = .next t) : RecordsHandshakes s t := by
  have hch := channels_xfWait hc hq
  unfold xfWaitPoint at h
  split at h <;> cases h
  · exact ⟨[], rfl, by simp [Handshakes, *]⟩
  · rename_i r hr
    obtain ⟨hover, hdone⟩ | ⟨hfits, hdone⟩ := xfDone_cases r s
    · exact ⟨[], by simp [hdone], by simp [Handshakes, *]⟩
    · refine ⟨[.xrspOk r], by simp [hdone], ?_⟩
      have honly : ∀ r' : Bytes, r' = r ↔ r = r' ∧ r'.length ≤ s.par.rlenMax :=
        fun r' => ⟨by rintro rfl; exact ⟨rfl, hfits⟩, fun h => h.1.symm⟩
      simp [Handshakes, *]
  · exact ⟨[.xrspFail], rfl, by simp [Handshakes, xfFail, *]⟩

theorem txPoint_handshakes (he : pointEnabled s = true) (hc : s.cs = .conn) (hq : s.seq = .tx) (h : txPoint s = .next t) :
    RecordsHandshakes s t := by
  have hch := channels_tx hc hq
  unfold txPoint at h
  split at h
  · cases h
  · rename_i b r ht
    split at h <;> cases h
    · exact ⟨[], rfl, by simp [Handshakes, *]⟩
    · exact ⟨[.txByte b], rfl, by simp [Handshakes, writeByte, @eq_comm Byte b, *]⟩
    · exact ⟨[.txErr], rfl, by simp [Handshakes, txErr, *]⟩

theorem teardown_handshakes (he : pointEnabled s = true) (hc : s.cs = .closed) : RecordsHandshakes s (teardown s).tick := by
  have hch := channels_other (s := s) (by simp [hc]) (by simp [hc])
  obtain ⟨-, htear⟩ | ⟨-, htear⟩ := teardown_cases s
  · exact ⟨[.evtStop, .evtClose], by simp [htear], by simp [Handshakes, *]⟩
  · exact ⟨[.evtClose], by simp [htear], by simp [Handshakes, *]⟩

/-- In STOPPED and HALTED nothing is transferred and nothing pulses (R193, R195). -/
theorem resting_handshakes (hc : s.cs = .stopped ∨ s.cs = .halted) : RecordsHandshakes s s.tick := by
  have hch := channels_other (s := s) (by rintro h; simp [h] at hc) (by rintro h; simp [h] at hc)
  refine ⟨[], rfl, ?_⟩
  obtain hc | hc := hc <;> simp [Handshakes, *]

theorem pointStep_handshakes (he : pointEnabled s = true) (h : pointStep s = .next t) : RecordsHandshakes s t := by
  cases hc : s.cs with
  | listen => exact listenPoint_handshakes he hc (pointStep_listen hc ▸ h)
  | conn =>
    cases hq : s.seq with
    | rx => exact rxPoint_handshakes he hc hq (pointStep_rx hc hq ▸ h)
    | drain => exact drainPoint_handshakes he hc hq (pointStep_drain hc hq ▸ h)
    | xfWait => exact xfWaitPoint_handshakes he hc hq (pointStep_xfWait hc hq ▸ h)
    | tx => exact txPoint_handshakes he hc hq (pointStep_tx hc hq ▸ h)
  | closed => rw [pointStep_closed hc] at h; cases h; exact teardown_handshakes he hc
  | stopped => rw [pointStep_stopped hc] at h; cases h; exact resting_handshakes (.inl hc)
  | halted => rw [pointStep_halted hc] at h; cases h; exact resting_handshakes (.inr hc)

/-! Reset and stop transfer nothing (R196). -/

theorem takeReset_handshakes (hr : s.pins.rst = true) : RecordsHandshakes s (takeReset s).tick :=
  ⟨[], rfl, by simp [Handshakes, pointEnabled, hr]⟩

theorem takeStop_handshakes (hs : stopTaken s = true) : RecordsHandshakes s (takeStop s).tick := by
  obtain ⟨-, -, -, hcs⟩ := stopTaken_spec hs
  have hne : s.cs ≠ .stopped := by rintro h; simp [h] at hcs
  obtain ⟨-, hstop⟩ | ⟨-, -, hstop⟩ := takeStop_cases s
  · exact ⟨[.evtStop], by simp [hstop], by simp [Handshakes, pointEnabled, *]⟩
  · exact ⟨[], by simp [hstop], by simp [Handshakes, pointEnabled, *]⟩

theorem turn_handshakes (h : turn s = .next t) : RecordsHandshakes s t := by
  unfold turn at h
  split at h
  · cases h; exact takeReset_handshakes ‹_›
  · split at h
    · cases h; exact takeStop_handshakes ‹_›
    · exact pointStep_handshakes (by simp [pointEnabled, *]) h

/-- Settles O37: a step is a turn from the state in which untaken offers wait, which has the same record and the same channels. -/
theorem transfersAreHandshakes : Obligations.TransfersAreHandshakes :=
  fun s _ h => turn_handshakes (s := s.hold) h

end Sys2Proof.Machine
end

section
/-! O39. What stands after a step: on each channel the offers before it, without the one FR takes in it. -/

namespace Sys2Proof.Machine

variable {s t : State}

/-! The offers of all inputs are those of this step's record and then those to come. -/

theorem rxOffers_env (s : State) : rxOffers s.env = s.pins.rx.toList ++ rxOffers s.env.tail := by
  unfold State.pins
  cases s.env <;> simp

theorem xrOffers_env (s : State) : xrOffers s.env = s.pins.xr.toList ++ xrOffers s.env.tail := by
  unfold State.pins
  cases s.env <;> simp

theorem accOffers_env (s : State) : accOffers s.env = s.pins.acc.toNat + accOffers s.env.tail := by
  unfold State.pins
  cases s.env <;> simp

theorem recordAt_tail (ps : List Pins) (k : Nat) : recordAt ps.tail k = recordAt ps (k + 1) := by simp [recordAt]

theorem headD_tail (ps : List Pins) : ps.tail.headD {} = recordAt ps 1 := by
  cases ps with
  | nil => rfl
  | cons p ps => cases ps <;> rfl

/-! The offers after a step are those it leaves untaken and then those to come. -/

theorem rxOffers_nextEnv (s : State) : rxOffers (nextEnv s) = (untaken s).rx.toList ++ rxOffers s.env.tail := by
  simp [nextEnv, waiting]

theorem xrOffers_nextEnv (s : State) : xrOffers (nextEnv s) = (untaken s).xr.toList ++ xrOffers s.env.tail := by
  simp [nextEnv, waiting]

theorem accOffers_nextEnv (s : State) : accOffers (nextEnv s) = (untaken s).acc.toNat + accOffers s.env.tail := by
  simp [nextEnv, waiting]

/-- The record after a step: this step's untaken offers before those of the record to come. -/
theorem step_pins (h : step s = .next t) : t.pins = { recordAt s.env 1 with
    acc := (untaken s).acc || (recordAt s.env 1).acc, rx := (untaken s).rx.or (recordAt s.env 1).rx,
    xr := (untaken s).xr.or (recordAt s.env 1).xr } := by
  rw [State.pins, step_env h, nextEnv, waiting_headD, headD_tail]

/-! What FR offers and nobody takes: the control point waits (R8, R9, R202). -/

/-- A request the transform unit is not ready for waits in DRAIN (R162). -/
theorem pointStep_of_request_held {x : Nat × Bytes} (hx : xqOffer s = some x) (hr : s.pins.xqReady = false) :
    pointStep s = .next s.tick := by
  obtain ⟨hc, hq, r, hh, hi⟩ := xqOffer_eq_some.mp hx
  rw [pointStep_drain hc hq, drainPoint_eq, hh]
  simp [extract, hi, hr]

/-- A byte the consumer holds waits in TX (R164). -/
theorem pointStep_of_byte_held {b : Byte} (hb : txOffer s = some b) (hp : s.pins.tx = .hold) :
    pointStep s = .next s.tick := by
  obtain ⟨hc, hq, r, ht⟩ := txOffer_eq_some.mp hb
  rw [pointStep_tx hc hq]
  simp [txPoint, ht, hp]

/-- A step in which the control point waits leaves FR and its offers as they are. -/
theorem step_of_wait (he : pointEnabled s = true) (hw : pointStep s.hold = .next s.hold.tick) (h : step s = .next t) :
    t = s.hold.tick := by
  rw [step_eq_pointStep he, hw] at h
  exact (Host.Outcome.next.inj h).symm

/-! Channel by channel. -/

/-- FR takes at most the accept of this step's record (R6). -/
theorem step_accOffers (h : step s = .next t) : accOffers s.env =
    (if pointEnabled s = true ∧ accReady s = true ∧ s.pins.acc = true then 1 else 0) + accOffers t.env := by
  rw [step_env h, accOffers_nextEnv, accOffers_env]
  cases he : pointEnabled s <;> cases hr : accReady s <;> cases ha : s.pins.acc <;> simp [untaken, accOpen, *]

/-- FR takes at most the ingress transfer of this step's record (R7). -/
theorem step_rxOffers (h : step s = .next t) : rxOffers s.env =
    (if pointEnabled s = true ∧ rxReady s = true then s.pins.rx.toList else []) ++ rxOffers t.env := by
  rw [step_env h, rxOffers_nextEnv, rxOffers_env]
  by_cases hopen : pointEnabled s = true ∧ rxReady s = true <;> simp [untaken, rxOpen, hopen]

/-- With a request outstanding FR takes at most the answer of this step's record (R9). -/
theorem step_xrOffers_of_ready (h : step s = .next t) (hr : xrReady s = true) :
    xrOffers s.env = (if pointEnabled s = true then s.pins.xr.toList else []) ++ xrOffers t.env := by
  rw [step_env h, xrOffers_nextEnv, xrOffers_env]
  cases he : pointEnabled s <;> simp [untaken, hr, he]

/-- With no request outstanding an answer has no move and does not stand (R228; log entry 19). -/
theorem step_xrOffers_of_not_ready (h : step s = .next t) (hr : xrReady s = false) :
    xrOffers s.env = s.pins.xr.toList ++ xrOffers t.env ∧ t.pins.xr = (recordAt s.env 1).xr := by
  constructor
  · rw [step_env h, xrOffers_nextEnv, xrOffers_env]
    simp [untaken, hr]
  · simp [step_pins h, untaken, hr]

/-- What the host and the consumers do in later steps moves up by the step. -/
theorem step_reactions (h : step s = .next t) (k : Nat) :
    (recordAt t.env k).rst = (recordAt s.env (k + 1)).rst ∧ (recordAt t.env k).stop = (recordAt s.env (k + 1)).stop ∧
      (recordAt t.env k).xqReady = (recordAt s.env (k + 1)).xqReady ∧
      (recordAt t.env k).tx = (recordAt s.env (k + 1)).tx := by
  rw [step_env h, ← recordAt_tail]
  exact waiting_reactions (untaken s) s.env.tail k

/-- Settles O39: each channel's offers are conserved in order, and what waits is left as it is. -/
theorem offersStandUntilTaken : Obligations.OffersStandUntilTaken := by
  intro s t h
  refine ⟨step_accOffers h, step_rxOffers h, step_xrOffers_of_ready h, step_xrOffers_of_not_ready h, ?_, ?_, ?_, ?_, ?_,
    step_reactions h⟩
  · intro ha hopen
    have hopen' : accOpen s = false := by simpa [accOpen] using hopen
    simp [step_pins h, untaken, ha, hopen']
  · intro o ho hopen
    have hopen' : rxOpen s = false := by simpa [rxOpen] using hopen
    simp [step_pins h, untaken, ho, hopen']
  · intro a ha hr he
    simp [step_pins h, untaken, ha, hr, he]
  · intro he x hx hr
    rw [step_of_wait he (pointStep_of_request_held (s := s.hold) hx hr) h]
    exact hx
  · intro he b hb hp
    rw [step_of_wait he (pointStep_of_byte_held (s := s.hold) hb hp) h]
    exact hb

end Sys2Proof.Machine
end

section
/-! O38. A step reads no more of its record than the channels FR is ready for or offers on: two records that agree there give
the same step, but for the inputs to come. -/

namespace Sys2Proof.Machine

variable {s t : State} {p q : Pins}

/-- The records `p` and `q` agree on everything that FR looks at in the state `s` (R5 to R10). -/
structure SeenAlike (s : State) (p q : Pins) : Prop where
  rst : p.rst = q.rst
  stop : p.stop = q.stop
  acc : accReady s = true → p.acc = q.acc
  rx : rxReady s = true → p.rx = q.rx
  xr : xrReady s = true → p.xr = q.xr
  tx : txOffer s ≠ none → p.tx = q.tx
  xqReady : xqOffer s ≠ none → p.xqReady = q.xqReady

/-- `s` with the record `p` for this step and the records `ps` to come. -/
def State.on (s : State) (p : Pins) (ps : List Pins) : State := { s with env := p :: ps }

@[simp] theorem on_pins (s : State) (p : Pins) (ps : List Pins) : (s.on p ps).pins = p := rfl

/-! The operations with a condition do not look at the inputs. -/

/-- Two conditionals whose conditions agree are compared branch by branch. -/
theorem blind_ite {α : Type} {c c' : Prop} [Decidable c] [Decidable c'] {a b a' b' : α}
    (f : α → Host.Outcome State Fault Refusal) (hc : c ↔ c') (ha : blind (f a) = blind (f a'))
    (hb : blind (f b) = blind (f b')) : blind (f (if c then a else b)) = blind (f (if c' then a' else b')) := by
  by_cases h : c
  · rw [if_pos h, if_pos (hc.mp h)]
    exact ha
  · rw [if_neg h, if_neg (fun h' => h (hc.mpr h'))]
    exact hb

theorem blind_feed (d : Bytes) (s : State) (p q : Pins) (ps qs : List Pins) :
    blind (.next (feed d (s.on p ps)).tick) = blind (.next (feed d (s.on q qs)).tick) :=
  blind_ite (fun x : State => .next x.tick) Iff.rfl rfl rfl

theorem blind_xfDone (r : Bytes) (s : State) (p q : Pins) (ps qs : List Pins) :
    blind (.next (xfDone r (s.on p ps)).tick) = blind (.next (xfDone r (s.on q qs)).tick) :=
  blind_ite (fun x : State => .next x.tick) Iff.rfl rfl rfl

theorem blind_teardown (s : State) (p q : Pins) (ps qs : List Pins) :
    blind (.next (teardown (s.on p ps)).tick) = blind (.next (teardown (s.on q qs)).tick) :=
  blind_ite (fun x : State => .next x.tick) Iff.rfl rfl rfl

theorem blind_takeStop (s : State) (p q : Pins) (ps qs : List Pins) :
    blind (.next (takeStop (s.on p ps)).tick) = blind (.next (takeStop (s.on q qs)).tick) :=
  blind_ite (fun x : State => .next x.tick) Iff.rfl rfl rfl

/-! The control points, each reading its own channel. -/

theorem blind_listenPoint (h : p.acc = q.acc) (ps qs : List Pins) :
    blind (listenPoint (s.on p ps)) = blind (listenPoint (s.on q qs)) :=
  blind_ite id (by rw [on_pins, on_pins, h]) rfl rfl

theorem blind_rxPoint (h : p.rx = q.rx) (ps qs : List Pins) : blind (rxPoint (s.on p ps)) = blind (rxPoint (s.on q qs)) := by
  simp only [rxPoint, on_pins, h]
  split
  · rfl
  · rename_i d hd
    exact blind_ite id Iff.rfl (blind_feed d s p q ps qs) rfl
  · rfl
  · rfl

theorem blind_extract {op : Nat} {x : Bytes} (h : classify s.par op = .supported → p.xqReady = q.xqReady)
    (ps qs : List Pins) : blind (extract op x (s.on p ps)) = blind (extract op x (s.on q qs)) := by
  change blind (match classify s.par op with | .unsupported => _ | .supported => _) =
    blind (match classify s.par op with | .unsupported => _ | .supported => _)
  cases hi : classify s.par op with
  | unsupported => rfl
  | supported => exact blind_ite id (by rw [on_pins, on_pins, h hi]) rfl rfl

/-- DRAIN looks at the transform unit's readiness only when it offers a request (R162). -/
theorem blind_drainPoint (hc : s.cs = .conn) (hq : s.seq = .drain) (h : xqOffer s ≠ none → p.xqReady = q.xqReady)
    (ps qs : List Pins) : blind (drainPoint (s.on p ps)) = blind (drainPoint (s.on q qs)) := by
  rw [drainPoint_eq, drainPoint_eq]
  change blind (match headFrame s.par s.buf with | .error _ => _ | .ok (op, x, _) => _) =
    blind (match headFrame s.par s.buf with | .error _ => _ | .ok (op, x, _) => _)
  cases hh : headFrame s.par s.buf with
  | error e => rfl
  | ok y =>
    obtain ⟨op, x, r⟩ := y
    refine blind_extract (fun hi => h ?_) ps qs
    rw [xqOffer_eq_some.mpr ⟨hc, hq, r, hh, hi⟩]
    simp

theorem blind_xfWaitPoint (h : p.xr = q.xr) (ps qs : List Pins) :
    blind (xfWaitPoint (s.on p ps)) = blind (xfWaitPoint (s.on q qs)) := by
  simp only [xfWaitPoint, on_pins, h]
  split
  · rfl
  · exact blind_xfDone _ s p q ps qs
  · rfl

/-- TX looks at the consumer's reaction only when it offers a byte (R164). -/
theorem blind_txPoint (h : s.txq ≠ [] → p.tx = q.tx) (ps qs : List Pins) :
    blind (txPoint (s.on p ps)) = blind (txPoint (s.on q qs)) := by
  change blind (match s.txq with | [] => _ | b :: r => _) = blind (match s.txq with | [] => _ | b :: r => _)
  cases ht : s.txq with
  | nil => rfl
  | cons b r =>
    simp only [on_pins, h (by simp [ht])]
    split <;> rfl

theorem blind_pointStep (h : SeenAlike s p q) (ps qs : List Pins) :
    blind (pointStep (s.on p ps)) = blind (pointStep (s.on q qs)) := by
  cases hc : s.cs with
  | listen =>
    rw [pointStep_listen (s := s.on p ps) hc, pointStep_listen (s := s.on q qs) hc]
    exact blind_listenPoint (h.acc (accReady_iff.mpr hc)) ps qs
  | conn =>
    cases hq : s.seq with
    | rx =>
      rw [pointStep_rx (s := s.on p ps) hc hq, pointStep_rx (s := s.on q qs) hc hq]
      exact blind_rxPoint (h.rx (rxReady_iff.mpr ⟨hc, hq⟩)) ps qs
    | drain =>
      rw [pointStep_drain (s := s.on p ps) hc hq, pointStep_drain (s := s.on q qs) hc hq]
      exact blind_drainPoint hc hq h.xqReady ps qs
    | xfWait =>
      rw [pointStep_xfWait (s := s.on p ps) hc hq, pointStep_xfWait (s := s.on q qs) hc hq]
      exact blind_xfWaitPoint (h.xr (xrReady_iff.mpr ⟨hc, hq⟩)) ps qs
    | tx =>
      rw [pointStep_tx (s := s.on p ps) hc hq, pointStep_tx (s := s.on q qs) hc hq]
      exact blind_txPoint (fun ht => h.tx (by simpa [txOffer, hc, hq] using ht)) ps qs
  | closed =>
    rw [pointStep_closed (s := s.on p ps) hc, pointStep_closed (s := s.on q qs) hc]
    exact blind_teardown s p q ps qs
  | stopped => rw [pointStep_stopped (s := s.on p ps) hc, pointStep_stopped (s := s.on q qs) hc]; rfl
  | halted => rw [pointStep_halted (s := s.on p ps) hc, pointStep_halted (s := s.on q qs) hc]; rfl

/-- A turn does the same to FR, the parameters and the history on records that FR sees alike (R196). -/
theorem blind_turn (h : SeenAlike s p q) (ps qs : List Pins) : blind (turn (s.on p ps)) = blind (turn (s.on q qs)) := by
  have hstop : stopTaken (s.on p ps) = stopTaken (s.on q qs) := by
    change (!p.rst && p.stop && stopOpen s) = (!q.rst && q.stop && stopOpen s)
    rw [h.rst, h.stop]
  refine blind_ite id (by rw [on_pins, on_pins, h.rst]) rfl (blind_ite id (by rw [hstop]) ?_ ?_)
  · exact blind_takeStop s p q ps qs
  · exact blind_pointStep h ps qs

theorem blind_step (h : SeenAlike s p q) (ps qs : List Pins) : blind (step (s.on p ps)) = blind (step (s.on q qs)) :=
  blind_turn h _ _

/-- Two steps that do the same to FR, before the same inputs, are the same step. -/
theorem step_eq_of_blind (h : blind (step s) = blind (step t)) (he : nextEnv s = nextEnv t) : step s = step t := by
  cases hs : step s with
  | next u =>
    cases ht : step t with
    | next v =>
      have henv : u.env = v.env := by rw [step_env hs, step_env ht, he]
      rw [hs, ht] at h
      have heq : ({ u with env := [] } : State) = { v with env := [] } := Host.Outcome.next.inj h
      obtain ⟨⟩ := u
      obtain ⟨⟩ := v
      simp only [State.mk.injEq] at heq henv ⊢
      simp_all
    | fault => simp [hs, ht, blind] at h
    | refused => simp [hs, ht, blind] at h
  | fault => cases ht : step t <;> simp_all [blind]
  | refused => cases ht : step t <;> simp_all [blind]

/-- Every record is seen like itself. -/
theorem SeenAlike.refl (s : State) (p : Pins) : SeenAlike s p p :=
  ⟨rfl, rfl, fun _ => rfl, fun _ => rfl, fun _ => rfl, fun _ => rfl, fun _ => rfl⟩

/-- Settles O38: each clause changes the record only where FR does not look; what a consumer does leaves no offer standing. -/
theorem unreadyChannelsAreNotRead : Obligations.UnreadyChannelsAreNotRead := by
  intro s p more henv
  have hs : s.on p more = s := by rw [State.on, ← henv]
  have same := SeenAlike.refl s p
  have hblind : ∀ q, SeenAlike s p q → blind (step s) = blind (step (s.on q more)) := by
    intro q hq
    have h := blind_step hq more more
    rwa [hs] at h
  refine ⟨fun hr x => ?_, fun hr x => ?_, fun hr x => ?_, fun hn x => ?_, fun hn x => ?_⟩
  · exact hblind { p with acc := x } { same with acc := by simp [hr] }
  · exact hblind { p with rx := x } { same with rx := by simp [hr] }
  · exact hblind { p with xr := x } { same with xr := by simp [hr] }
  · exact step_eq_of_blind (hblind { p with tx := x } { same with tx := fun h => (h hn).elim })
      (congrArg nextEnv hs).symm
  · exact step_eq_of_blind (hblind { p with xqReady := x } { same with xqReady := fun h => (h hn).elim })
      (congrArg nextEnv hs).symm

end Sys2Proof.Machine
end

section
/-! O54 and O55. On a run whose host is quiet a wait ends once the agent it waits for meets its duty (R11, R202). -/

namespace Sys2Proof.Machine

variable {s t : State} {f : Nat → Pins} {p : Pins}

/-- A wait `W` that each step continues until `go` holds of its state and record comes to a step in which `go` holds, when the
agent's duty `P` is owed while FR's side `Q` of the offer stands. -/
theorem eventually_goes {W : State → Prop} {go : State → Pins → Prop} {P : Pins → Prop} {Q : State → Prop} {n : Nat}
    (hwait : ∀ k u, W u → ¬ go u (f k) → ∃ v, driveStep (f k) u = .next v ∧ W v)
    (hP : ∀ u p, P p → go u p) (hQ : ∀ u, W u → Q u)
    (hn : drive f n s = .next t) (ht : W t) (hev : Eventually f s n P Q) :
    ∃ m u, drive f m s = .next u ∧ W u ∧ go u (f m) := by
  by_contra hno
  have hstill : ∀ j, ∃ u, drive f (n + j) s = .next u ∧ W u := by
    intro j
    induction j with
    | zero => exact ⟨t, hn, ht⟩
    | succ j ih =>
      obtain ⟨u, hu, hw⟩ := ih
      obtain ⟨v, hv, hwv⟩ := hwait (n + j) u hw fun hgo => hno ⟨n + j, u, hu, hw, hgo⟩
      exact ⟨v, (drive_succ hu).trans hv, hwv⟩
  obtain ⟨m, hm, hend⟩ := hev
  obtain ⟨u, hu, hw⟩ := hstill (m - n)
  rw [Nat.add_sub_cancel' hm] at hu
  obtain hp | ⟨v, hv, hq⟩ := hend
  · exact hno ⟨m, u, hu, hw, hP u _ hp⟩
  · rw [hu] at hv
    cases hv
    exact hq (hQ u hw)

/-! One driven step at each of the three waits. -/

/-- The state in which a driven step acts: the record has arrived, and the untaken offers wait behind it. -/
def arrived (p : Pins) (s : State) : State := State.hold { s with env := arrive p s.env }

@[simp] theorem arrived_tx (p : Pins) (s : State) : (arrived p s).pins.tx = p.tx := by simp [arrived, pins_arrive]

@[simp] theorem arrived_xqReady (p : Pins) (s : State) : (arrived p s).pins.xqReady = p.xqReady := by
  simp [arrived, pins_arrive]

@[simp] theorem arrived_xr (p : Pins) (s : State) : (arrived p s).pins.xr = s.pins.xr.or p.xr := by
  simp [arrived, pins_arrive]

/-- In TX a consumer that holds keeps FR waiting with the same bytes staged (R164, R202). -/
theorem driveStep_byte_held (hr : p.rst = false) (hs : p.stop = false) (hc : s.cs = .conn) (hq : s.seq = .tx)
    (ht : s.txq ≠ []) (hp : p.tx = .hold) :
    ∃ u, driveStep p s = .next u ∧ u.cs = .conn ∧ u.seq = .tx ∧ u.txq = s.txq := by
  obtain ⟨b, r, hbr⟩ := List.exists_cons_of_ne_nil ht
  have hb : txOffer (arrived p s) = some b := txOffer_eq_some.mpr ⟨hc, hq, r, hbr⟩
  exact ⟨_, (driveStep_quiet hr hs).trans (pointStep_of_byte_held hb ((arrived_tx p s).trans hp)), hc, hq, rfl⟩

/-- In TX a consumer that reacts takes one byte, the last one leading back to DRAIN, or ends the connection (R164, R169). -/
theorem driveStep_byte_answered (hr : p.rst = false) (hs : p.stop = false) (hc : s.cs = .conn) (hq : s.seq = .tx)
    {b : Byte} {r : Bytes} (ht : s.txq = b :: r) (hp : p.tx ≠ .hold) :
    ∃ u, driveStep p s = .next u ∧
      ((u.cs = .conn ∧ u.seq = (if r.isEmpty then .drain else .tx) ∧ u.txq = r) ∨ u.cs = .closed) := by
  have hpoint : driveStep p s = txPoint (arrived p s) := (driveStep_quiet hr hs).trans (pointStep_tx hc hq)
  have htxq : (arrived p s).txq = b :: r := ht
  cases htx : p.tx with
  | hold => exact (hp htx).elim
  | accept =>
    refine ⟨(writeByte b r (arrived p s)).tick, ?_, .inl ⟨hc, rfl, rfl⟩⟩
    simp [hpoint, txPoint, htxq, htx]
  | err =>
    refine ⟨(txErr (arrived p s)).tick, ?_, .inr rfl⟩
    simp [hpoint, txPoint, htxq, htx]

/-- In DRAIN a transform unit that is not ready keeps FR offering the same request (R162, R202). -/
theorem driveStep_request_held (hr : p.rst = false) (hs : p.stop = false) {x : Nat × Bytes} (hx : xqOffer s = some x)
    (hp : p.xqReady = false) : ∃ u, driveStep p s = .next u ∧ xqOffer u = some x := by
  have hx' : xqOffer (arrived p s) = some x := hx
  exact ⟨_, (driveStep_quiet hr hs).trans (pointStep_of_request_held hx' ((arrived_xqReady p s).trans hp)), hx⟩

/-- In DRAIN a transform unit that is ready takes the request (R162). -/
theorem driveStep_request_taken (hr : p.rst = false) (hs : p.stop = false) {x : Nat × Bytes} (hx : xqOffer s = some x)
    (hp : p.xqReady = true) : ∃ u, driveStep p s = .next u ∧ u.cs = .conn ∧ u.seq = .xfWait := by
  obtain ⟨op, y⟩ := x
  obtain ⟨hc, hq, r, hh, hi⟩ := xqOffer_eq_some.mp hx
  have hpoint : driveStep p s = drainPoint (arrived p s) := (driveStep_quiet hr hs).trans (pointStep_drain hc hq)
  have hhead : headFrame (arrived p s).par (arrived p s).buf = .ok (op, y, r) := hh
  have hclass : classify (arrived p s).par op = .supported := hi
  refine ⟨(dispatchXf (latchFrame op y (arrived p s))).tick, ?_, hc, rfl⟩
  simp [hpoint, drainPoint_eq, hhead, extract, hclass, hp]

/-- In XF_WAIT FR waits while no answer stands or arrives (R163, R202). -/
theorem driveStep_no_answer (hr : p.rst = false) (hs : p.stop = false) (hx : xrReady s = true)
    (hp : s.pins.xr.or p.xr = none) : ∃ u, driveStep p s = .next u ∧ xrReady u = true := by
  obtain ⟨hc, hq⟩ := xrReady_iff.mp hx
  have hpoint : driveStep p s = xfWaitPoint (arrived p s) := (driveStep_quiet hr hs).trans (pointStep_xfWait hc hq)
  refine ⟨(arrived p s).tick, ?_, hx⟩
  rw [hpoint, xfWaitPoint, arrived_xr, hp]

/-- In XF_WAIT an answer that stands or arrives is taken: a response is staged, or the connection or the machine stops
(R163, R165). -/
theorem driveStep_answered (hr : p.rst = false) (hs : p.stop = false) (hx : xrReady s = true)
    (hp : s.pins.xr.or p.xr ≠ none) :
    ∃ u, driveStep p s = .next u ∧ ((u.cs = .conn ∧ u.seq = .tx) ∨ u.cs = .closed ∨ u.cs = .halted) := by
  obtain ⟨hc, hq⟩ := xrReady_iff.mp hx
  have hpoint : driveStep p s = xfWaitPoint (arrived p s) := (driveStep_quiet hr hs).trans (pointStep_xfWait hc hq)
  obtain ⟨a, ha⟩ := Option.ne_none_iff_exists'.mp hp
  cases a with
  | ok r =>
    refine ⟨(xfDone r (arrived p s)).tick, by rw [hpoint, xfWaitPoint, arrived_xr, ha], ?_⟩
    obtain ⟨-, he⟩ | ⟨-, he⟩ := xfDone_cases r (arrived p s)
    · simp [he]
    · rw [he]
      exact .inl ⟨hc, rfl⟩
  | fail => exact ⟨(xfFail (arrived p s)).tick, by rw [hpoint, xfWaitPoint, arrived_xr, ha], .inr (.inl rfl)⟩

/-! The duties. -/

/-- At any point of a run whose consumer meets its duty, the rest of a response is written or the connection ends: by induction
on the bytes still staged. -/
theorem write_ends (hquiet : HostQuiet f) (hduty : EgressDuty f s) (q : Bytes) {n : Nat} (hn : drive f n s = .next t)
    (hc : t.cs = .conn) (hq : t.seq = .tx) (ht : t.txq = q) (hne : q ≠ []) :
    ∃ k u, drive f k s = .next u ∧ ((u.cs = .conn ∧ u.seq = .drain ∧ u.txq = []) ∨ u.cs = .closed) := by
  induction q generalizing n t with
  | nil => exact (hne rfl).elim
  | cons b r ih =>
    have hoffer : ∀ u : State, u.cs = .conn ∧ u.seq = .tx ∧ u.txq = b :: r → (txOffer u).isSome = true := by
      rintro u ⟨huc, huq, hut⟩
      rw [txOffer_eq_some.mpr ⟨huc, huq, r, hut⟩]
      rfl
    obtain ⟨m, u, hm, ⟨huc, huq, hut⟩, hgo⟩ := eventually_goes
      (W := fun u => u.cs = .conn ∧ u.seq = .tx ∧ u.txq = b :: r) (go := fun _ p => p.tx ≠ .hold)
      (fun k u ⟨huc, huq, hut⟩ hhold => by
        obtain ⟨v, hv, hvc, hvq, hvt⟩ := driveStep_byte_held (hquiet k).1 (hquiet k).2 huc huq (by simp [hut])
          (not_not.mp hhold)
        exact ⟨v, hv, hvc, hvq, hvt.trans hut⟩)
      (fun _ _ hp => hp) hoffer hn ⟨hc, hq, ht⟩ (hduty n t hn (hoffer t ⟨hc, hq, ht⟩))
    obtain ⟨v, hv, ⟨hvc, hvq, hvt⟩ | hclosed⟩ := driveStep_byte_answered (hquiet m).1 (hquiet m).2 huc huq hut hgo
    · have hnext := (drive_succ hm).trans hv
      cases r with
      | nil => exact ⟨m + 1, v, hnext, .inl ⟨hvc, hvq, hvt⟩⟩
      | cons b' r' => exact ih hnext hvc hvq hvt (by simp)
    · exact ⟨m + 1, v, (drive_succ hm).trans hv, .inr hclosed⟩

/-- Settles O54: the rest of the response that stands at the start is written. -/
theorem egressDutyEndsTheWrite : Obligations.EgressDutyEndsTheWrite :=
  fun _ s hquiet hduty hc hq hne => write_ends hquiet hduty s.txq (n := 0) rfl hc hq rfl hne

/-- A transform unit that meets its duty takes the request FR offers. -/
theorem request_taken (hquiet : HostQuiet f) (hduty : TuDuty f s) {x : Nat × Bytes} (hx : xqOffer s = some x) :
    ∃ k t, drive f k s = .next t ∧ t.cs = .conn ∧ t.seq = .xfWait := by
  have hoffer : ∀ u : State, xqOffer u = some x → (xqOffer u).isSome = true := fun u hu => by simp [hu]
  obtain ⟨m, u, hm, hux, hgo⟩ := eventually_goes (W := fun u => xqOffer u = some x) (go := fun _ p => p.xqReady = true)
    (fun k u hu hbusy => driveStep_request_held (hquiet k).1 (hquiet k).2 hu (Bool.eq_false_iff.mpr hbusy))
    (fun _ _ hp => hp) hoffer (n := 0) rfl hx (hduty.takes 0 s rfl (hoffer s hx))
  obtain ⟨v, hv, hvc, hvq⟩ := driveStep_request_taken (hquiet m).1 (hquiet m).2 hux hgo
  exact ⟨m + 1, v, (drive_succ hm).trans hv, hvc, hvq⟩

/-- A transform unit that meets its duty answers the outstanding request, unless its answer stands already: some step has one. -/
theorem answer_comes (hquiet : HostQuiet f) (hduty : TuDuty f s) (hx : xrReady s = true) :
    ∃ m u, drive f m s = .next u ∧ xrReady u = true ∧ u.pins.xr.or (f m).xr ≠ none := by
  by_cases hstands : s.pins.xr = none
  · exact eventually_goes (W := fun u => xrReady u = true) (go := fun u p => u.pins.xr.or p.xr ≠ none)
      (fun k u hu hnone => driveStep_no_answer (hquiet k).1 (hquiet k).2 hu (not_not.mp hnone))
      (fun u p hp => by simp [hp]) (fun _ hu => hu) (n := 0) rfl hx (hduty.answers 0 s rfl hx hstands)
  · exact ⟨0, s, rfl, hx, by simp [hstands]⟩

/-- Settles O55: in DRAIN the request is taken, in XF_WAIT the answer comes and is taken. -/
theorem tuDutyEndsTheWaits : Obligations.TuDutyEndsTheWaits := by
  intro f s hquiet hduty hc
  constructor
  · rintro ⟨x, -, hx⟩
    exact request_taken hquiet hduty hx
  · intro hq
    obtain ⟨m, u, hm, hu, hanswer⟩ := answer_comes hquiet hduty (xrReady_iff.mpr ⟨hc, hq⟩)
    obtain ⟨v, hv, hend⟩ := driveStep_answered (hquiet m).1 (hquiet m).2 hu hanswer
    exact ⟨m + 1, v, (drive_succ hm).trans hv, hend⟩

end Sys2Proof.Machine
end

section
/-! O45 and O46. What a step does to the received stream, the extracted frames and the buffer of a connection, said once: it opens
the connection with all three empty, appends a chunk, moves the head frame from the buffer to the frames, or leaves them. -/

namespace Sys2Proof.Machine

variable {s t : State}

/-- The ways a step can lead to CONN, by what it does to the stream received, the frames extracted and `buf` (R141, R143, R160). -/
inductive StreamMove (s t : State) : Prop where
  | opened (hr : received t.hist = []) (hx : extracted t.hist = []) (hb : t.buf = [])
  | kept (hc : s.cs = .conn) (hr : received t.hist = received s.hist) (hx : extracted t.hist = extracted s.hist)
      (hb : t.buf = s.buf)
  | fed (hc : s.cs = .conn) (d : Bytes) (hr : received t.hist = received s.hist ++ d)
      (hx : extracted t.hist = extracted s.hist) (hb : t.buf = s.buf ++ d)
  | extracted (hc : s.cs = .conn) (op : Nat) (p r : Bytes) (h : headFrame s.par s.buf = .ok (op, p, r))
      (hr : received t.hist = received s.hist) (hx : extracted t.hist = Machine.extracted s.hist ++ [(op, p)])
      (hb : t.buf = r)

/-- Every row of the step table that leads to CONN is one of these (R174). -/
theorem Move.streamMove (m : Move s t) (hc : t.cs = .conn) : StreamMove s t := by
  cases m with
  | reset | fin | rerr | fail | txErr => cases hc
  | wait => exact .kept hc rfl rfl rfl
  | accept => exact .opened rfl rfl rfl
  | drained hc | write hc => exact .kept hc rfl rfl rfl
  | stop =>
    obtain ⟨-, he⟩ | ⟨-, -, he⟩ := takeStop_cases s
    · simp [he] at hc
    · rw [he] at hc ⊢
      exact .kept hc rfl rfl rfl
  | feed hcs _ d =>
    obtain ⟨-, he⟩ | ⟨-, he⟩ := feed_cases d s
    · simp [he] at hc
    · rw [he]
      exact .fed hcs d rfl rfl rfl
  | unsup hcs _ op p r hh | request hcs _ op p r hh =>
    obtain ⟨-, -, -, -, -, -, rfl⟩ := headFrame_ok hh
    exact .extracted hcs op p _ hh rfl rfl rfl
  | done hcs _ r =>
    obtain ⟨-, he⟩ | ⟨-, he⟩ := xfDone_cases r s
    · simp [he] at hc
    · rw [he]
      exact .kept hcs rfl rfl rfl
  | teardown => obtain ⟨-, he⟩ | ⟨-, he⟩ := teardown_cases s <;> simp [he] at hc

/-! O45. The buffer by lengths. -/

@[simp] theorem framesLength_nil (par : Params) : framesLength par [] = 0 := rfl

@[simp] theorem framesLength_concat (par : Params) (fs : List (Nat × Bytes)) (op : Nat) (p : Bytes) :
    framesLength par (fs ++ [(op, p)]) = framesLength par fs + (par.hdrBytes + p.length) := by
  simp [framesLength]

/-- Every row keeps the law of R40. -/
theorem Move.bufferLaw (m : Move s t) (hlaw : BufferLaw s) : BufferLaw t := by
  intro hc
  rw [m.par_env.1]
  cases m.streamMove hc with
  | opened hr hx hb => simp [hr, hx, hb]
  | kept hcs hr hx hb => rw [hr, hx, hb]; exact hlaw hcs
  | fed hcs d hr hx hb =>
    obtain ⟨hbuf, hle⟩ := hlaw hcs
    rw [hr, hx, hb, List.drop_append_of_le_length hle, ← hbuf, List.length_append]
    exact ⟨rfl, by omega⟩
  | extracted hcs op p r hh hr hx hb =>
    obtain ⟨hbuf, hle⟩ := hlaw hcs
    obtain ⟨-, -, -, -, -, hfits, rfl⟩ := headFrame_ok hh
    rw [hbuf, List.length_drop] at hfits
    rw [hr, hx, hb, framesLength_concat, hbuf, List.drop_drop]
    exact ⟨rfl, by omega⟩

/-- Settles O45: a chunk goes to the end of the stream and of its suffix, a frame extracted is the head of the suffix. -/
theorem bufferIsTheUnconsumedSuffix : Obligations.BufferIsTheUnconsumedSuffix :=
  ⟨by simp [BufferLaw, State.reset], fun _ _ hlaw h => (step_move h).bufferLaw hlaw⟩

/-! O46. The buffer by bytes: the frame at the head of `buf` is spelled by its own header and payload. -/

/-- A header is its two fields put together again (R103). -/
theorem encodeHeader_decodeHeader {par : Params} {h : Nat} (hh : h < 2 ^ (par.opBits + par.lenBits)) :
    encodeHeader par (decodeHeader par h).1 (decodeHeader par h).2 = some h := by
  have hop : h >>> par.lenBits < 2 ^ par.opBits := by
    rw [Nat.shiftRight_eq_div_pow]
    exact Nat.div_lt_of_lt_mul (by rwa [← Nat.pow_add, Nat.add_comm])
  have hlen : h % 2 ^ par.lenBits < 2 ^ par.lenBits := Nat.mod_lt _ (by positivity)
  simp only [encodeHeader, decodeHeader, Nat.mod_eq_of_lt hop, hop, hlen, and_self, if_true,
    ← Nat.shiftLeft_add_eq_or_of_lt hlen]
  rw [Nat.shiftRight_eq_div_pow, Nat.shiftLeft_eq, Nat.div_add_mod']

/-- The header at the head of a byte sequence fits the two fields, when these are as wide as the header (R63, R81). -/
theorem headAt_lt {par : Params} {bs : Bytes} {h : Nat} (hf : par.FormatOk) (hh : headAt par bs = some h) :
    h < 2 ^ (par.opBits + par.lenBits) := by
  obtain ⟨hl, rfl⟩ := headAt_eq_some.mp hh
  have hlt := beNat_lt (bs.take par.hdrBytes)
  rwa [List.length_take, Nat.min_eq_left hl, show 256 = 2 ^ 8 from rfl, ← Nat.pow_mul, ← hf.2.1] at hlt

/-- The head frame's bytes are those its opcode and payload are spelled with, and the rest follows (R80, R89). -/
theorem wire_append_of_headFrame {par : Params} {bs p r : Bytes} {op : Nat} (hf : par.FormatOk)
    (h : headFrame par bs = .ok (op, p, r)) : wire par (op, p) ++ r = bs := by
  obtain ⟨hd, hh, rfl, hlen, hslice, hfits, rfl⟩ := headFrame_ok h
  obtain ⟨hl, hval⟩ := headAt_eq_some.mp hh
  have hhead : beBytes par.hdrBytes hd = bs.take par.hdrBytes := by
    have hbytes := beBytes_beNat (bs.take par.hdrBytes)
    rwa [List.length_take, Nat.min_eq_left hl, ← hval] at hbytes
  have henc : encodeHeader par (decodeHeader par hd).1 p.length = some hd := by
    rw [hlen, encodeHeader_decodeHeader (headAt_lt hf hh)]
  have hwire : wire par ((decodeHeader par hd).1, p) = bs.take par.hdrBytes ++ p := by
    simp [wire, frameOf, henc, hhead]
  calc wire par ((decodeHeader par hd).1, p) ++ bs.drop (par.hdrBytes + p.length)
      = bs.take par.hdrBytes ++ (p ++ (bs.drop par.hdrBytes).drop p.length) := by
        rw [hwire, List.append_assoc, List.drop_drop]
    _ = bs.take par.hdrBytes ++ bs.drop par.hdrBytes := by
        rw [show p = (bs.drop par.hdrBytes).take p.length from hslice, List.length_take, List.length_drop,
          Nat.min_eq_left (by omega), List.take_append_drop]
    _ = bs := List.take_append_drop ..

/-- Every row keeps the law of the frames' own bytes (R40, R80). -/
theorem Move.framingLaw (m : Move s t) (hlaw : FramingLaw s) : FramingLaw t := by
  obtain ⟨hf, hconn⟩ := hlaw
  unfold FramingLaw
  rw [m.par_env.1]
  refine ⟨hf, fun hc => ?_⟩
  cases m.streamMove hc with
  | opened hr hx hb => simp [hr, hx, hb]
  | kept hcs hr hx hb => rw [hr, hx, hb]; exact hconn hcs
  | fed hcs d hr hx hb =>
    obtain ⟨hspelled, hstream⟩ := hconn hcs
    rw [hr, hx, hb, hstream, List.append_assoc]
    exact ⟨hspelled, rfl⟩
  | extracted hcs op p r hh hr hx hb =>
    obtain ⟨hspelled, hstream⟩ := hconn hcs
    obtain ⟨hop, hlen⟩ := headFrame_lt hh
    have hmax := hf.2.2.2
    rw [hr, hx, hb, hstream, ← wire_append_of_headFrame hf hh]
    refine ⟨fun f hmem => ?_, by simp⟩
    obtain hold | hnew := List.mem_append.mp hmem
    · exact hspelled f hold
    · obtain rfl := List.mem_singleton.mp hnew
      exact ⟨hop, by dsimp only; omega⟩

/-- Settles O46: a frame extracted takes its own bytes from the head of `buf` to the end of the frames' bytes. -/
theorem receivedIsFramesThenBuffer : Obligations.ReceivedIsFramesThenBuffer :=
  ⟨⟨by decide, by simp [State.reset]⟩, fun _ _ hlaw h => (step_move h).framingLaw hlaw⟩

end Sys2Proof.Machine
end

section
/-! O10. The phase, by the header at the head of the buffer (R39). -/

namespace Sys2Proof.Machine

/-- With a header read, the phase is by the length the header's low bits declare. -/
theorem phase_of_headAt {par : Params} {bs : Bytes} {h : Nat} (hh : headAt par bs = some h) :
    phase par bs = if bs.length < par.hdrBytes + h % 2 ^ par.lenBits then .awaitingPayload else .frameReady := by
  unfold phase
  rw [hh]
  rfl

theorem phase_awaitingHeader_iff {par : Params} {bs : Bytes} : phase par bs = .awaitingHeader ↔ bs.length < par.hdrBytes := by
  rw [← headAt_eq_none]
  cases hh : headAt par bs with
  | none => simp [phase, hh]
  | some h => rw [phase_of_headAt hh]; split <;> simp

/-- The default header is the first four bytes, big-endian (R63, R101). -/
theorem headAt_four (b0 b1 b2 b3 : Byte) (t : Bytes) : headAt {} (b0 :: b1 :: b2 :: b3 :: t)
    = some (b0.toNat * 2 ^ 24 + b1.toNat * 2 ^ 16 + b2.toNat * 2 ^ 8 + b3.toNat) := by
  refine headAt_eq_some.mpr ⟨by simp [Config.hdrBytesDefault], ?_⟩
  simp [Config.hdrBytesDefault, beNat]
  omega

/-- Settles O10: the default clauses are the general ones at four header bytes and 27 length bits. -/
theorem phaseByLength : Obligations.PhaseByLength := by
  refine ⟨fun bs h => phase_awaitingHeader_iff.mpr h, fun b0 b1 b2 b3 t => ?_, fun par bs => phase_awaitingHeader_iff,
    fun par bs h hh => ?_⟩
  · have hlen : (b0 :: b1 :: b2 :: b3 :: t).length = 4 + t.length := by simp only [List.length_cons]; omega
    intro len
    rw [phase_of_headAt (headAt_four b0 b1 b2 b3 t), hlen]
    rfl
  · rw [phase_of_headAt hh]
    simp

end Sys2Proof.Machine
end

section
/-! O40. No step reads the history: an older past stays behind whatever a step records, and everything else is as without it. -/

namespace Sys2Proof.Machine

/-- `s` with the events `h` before all that its history holds (the history is newest first). -/
def State.withPast (h : List Event) (s : State) : State := { s with hist := s.hist ++ h }

/-- The outcome `o` with the events `h` before all that its next state's history holds. -/
def outcomeWithPast (h : List Event) : Host.Outcome State Fault Refusal → Host.Outcome State Fault Refusal
  | .next t => .next (t.withPast h)
  | .fault e => .fault e
  | .refused r => .refused r

variable (h : List Event) (s : State)

@[simp] theorem withPast_par : (s.withPast h).par = s.par := rfl
@[simp] theorem withPast_cs : (s.withPast h).cs = s.cs := rfl
@[simp] theorem withPast_seq : (s.withPast h).seq = s.seq := rfl
@[simp] theorem withPast_buf : (s.withPast h).buf = s.buf := rfl
@[simp] theorem withPast_txq : (s.withPast h).txq = s.txq := rfl
@[simp] theorem withPast_pins : (s.withPast h).pins = s.pins := rfl

/-! The operations with a condition, which never looks at the history; the others commute with an older past by `rfl`. -/

theorem feed_withPast (d : Bytes) : feed d (s.withPast h) = (feed d s).withPast h := by
  unfold feed
  rw [apply_ite (State.withPast h)]
  rfl

theorem xfDone_withPast (r : Bytes) : xfDone r (s.withPast h) = (xfDone r s).withPast h := by
  unfold xfDone
  rw [apply_ite (State.withPast h)]
  rfl

theorem teardown_withPast : teardown (s.withPast h) = (teardown s).withPast h := by
  unfold teardown
  rw [apply_ite (State.withPast h)]
  rfl

theorem takeStop_withPast : takeStop (s.withPast h) = (takeStop s).withPast h := by
  unfold takeStop
  rw [apply_ite (State.withPast h)]
  rfl

/-! The control points. -/

theorem listenPoint_withPast : listenPoint (s.withPast h) = outcomeWithPast h (listenPoint s) := by
  unfold listenPoint
  rw [apply_ite (outcomeWithPast h)]
  rfl

theorem rxPoint_withPast : rxPoint (s.withPast h) = outcomeWithPast h (rxPoint s) := by
  simp only [rxPoint, withPast_pins, feed_withPast]
  split
  · rfl
  · rw [apply_ite (outcomeWithPast h)]
    rfl
  · rfl
  · rfl

theorem extract_withPast (op : Nat) (p : Bytes) :
    extract op p (s.withPast h) = outcomeWithPast h (extract op p s) := by
  simp only [extract, withPast_par, withPast_pins]
  split
  · rfl
  · rw [apply_ite (outcomeWithPast h)]
    rfl

theorem drainPoint_withPast : drainPoint (s.withPast h) = outcomeWithPast h (drainPoint s) := by
  simp only [drainPoint_eq, withPast_par, withPast_buf, extract_withPast]
  split
  · rfl
  · rfl

theorem xfWaitPoint_withPast : xfWaitPoint (s.withPast h) = outcomeWithPast h (xfWaitPoint s) := by
  simp only [xfWaitPoint, withPast_pins, xfDone_withPast]
  split
  · rfl
  · rfl
  · rfl

theorem txPoint_withPast : txPoint (s.withPast h) = outcomeWithPast h (txPoint s) := by
  simp only [txPoint, withPast_txq, withPast_pins]
  split
  · rfl
  · split
    · rfl
    · rfl
    · rfl

theorem pointStep_withPast : pointStep (s.withPast h) = outcomeWithPast h (pointStep s) := by
  simp only [pointStep, withPast_cs, withPast_seq]
  split
  · exact listenPoint_withPast h s
  · split
    · exact rxPoint_withPast h s
    · exact drainPoint_withPast h s
    · exact xfWaitPoint_withPast h s
    · exact txPoint_withPast h s
  · rw [teardown_withPast]
    rfl
  · rfl
  · rfl

/-- A turn does the same with an older past behind its state (R196). -/
theorem turn_withPast : turn (s.withPast h) = outcomeWithPast h (turn s) := by
  simp only [turn, apply_ite (outcomeWithPast h), ← pointStep_withPast, takeStop_withPast]
  rfl

/-- A step does the same with an older past behind its state. -/
theorem step_withPast : step (s.withPast h) = outcomeWithPast h (step s) := turn_withPast h s.hold

/-- Settles O40: both steps are the step with no past at all, each with its own past behind it. -/
theorem historyIsNeverRead : Obligations.HistoryIsNeverRead := by
  intro s h
  have hs : step s = outcomeWithPast s.hist (step { s with hist := [] }) :=
    step_withPast s.hist { s with hist := [] }
  have hh : step { s with hist := h } = outcomeWithPast h (step { s with hist := [] }) :=
    step_withPast h { s with hist := [] }
  rw [hs, hh]
  cases step { s with hist := [] } with
  | next u =>
    refine ⟨?_, by simp [outcomeWithPast], by simp [outcomeWithPast]⟩
    rintro t ⟨⟩
    exact ⟨u.withPast h, rfl, ⟨rfl, rfl, rfl, rfl, rfl, rfl, rfl, rfl, rfl, rfl⟩, rfl, rfl, u.hist, rfl, rfl⟩
  | fault e => simp [outcomeWithPast]
  | refused r => simp [outcomeWithPast]

end Sys2Proof.Machine
end

section
/-! O33. Each code is read back as the value it stands for, so no two values share one (R30, R37). -/

namespace Sys2Proof.Machine

/-- The connection state of a `status_cs` code; codes 5 to 7 are never driven (R30), and read as HALTED. -/
def ConnState.ofCode (c : BitVec 3) : ConnState :=
  match c.toNat with
  | 0 => .listen
  | 1 => .conn
  | 2 => .closed
  | 3 => .stopped
  | _ => .halted

/-- The fault of a `fault_code`; code 3 is never driven (R37), and reads as F_RSP_TOO_LONG. -/
def FaultCode.ofCode (c : BitVec 2) : FaultCode :=
  match c.toNat with
  | 0 => .none
  | 1 => .bufOverflow
  | _ => .rspTooLong

theorem ConnState.ofCode_code : Function.LeftInverse ConnState.ofCode ConnState.code := by
  intro a
  cases a <;> rfl

theorem FaultCode.ofCode_code : Function.LeftInverse FaultCode.ofCode FaultCode.code := by
  intro a
  cases a <;> rfl

/-- Settles O33: the codes as R30 and R37 list them, and each read back. -/
theorem statusCodes : Obligations.StatusCodes :=
  ⟨rfl, rfl, rfl, rfl, rfl, rfl, rfl, rfl, fun _ _ h => ConnState.ofCode_code.injective h,
    fun _ _ h => FaultCode.ofCode_code.injective h⟩

end Sys2Proof.Machine
end

section
/-! O49 and O50. What a step does to the frames extracted, the requests made and the responses staged of a connection, said once: it
opens the connection with none, extracts a frame that is requested or one that is answered at once, stages the answer to the
outstanding request, or leaves them. -/

namespace Sys2Proof.Machine

variable {s t : State}

/-- The ways a step can change a connection's account of frames, requests and responses (R70, R71, R160 to R163). -/
inductive AccountMove (s t : State) : Prop where
  | opened (hx : extracted t.hist = []) (hreq : requested t.hist = []) (hrsp : responses s.par t.hist = [])
      (hq' : t.seq = .rx)
  | kept (hx : extracted t.hist = extracted s.hist) (hreq : requested t.hist = requested s.hist)
      (hrsp : responses s.par t.hist = responses s.par s.hist)
      (hconn : t.cs = .conn → s.cs = .conn ∧ (t.seq = .xfWait ↔ s.seq = .xfWait) ∧ t.curOp = s.curOp ∧
        t.curPay = s.curPay)
  | unsup (hc : s.cs = .conn) (hq : s.seq = .drain) (op : Nat) (p : Bytes) (hi : classify s.par op = .unsupported)
      (hx : extracted t.hist = extracted s.hist ++ [(op, p)]) (hreq : requested t.hist = requested s.hist)
      (hrsp : responses s.par t.hist = responses s.par s.hist ++ [s.par.errorText]) (hq' : t.seq = .tx)
  | request (hc : s.cs = .conn) (hq : s.seq = .drain) (op : Nat) (p : Bytes) (hi : classify s.par op = .supported)
      (hx : extracted t.hist = extracted s.hist ++ [(op, p)]) (hreq : requested t.hist = requested s.hist ++ [(op, p)])
      (hrsp : responses s.par t.hist = responses s.par s.hist) (hq' : t.seq = .xfWait) (hop : t.curOp = op)
      (hpay : t.curPay = p)
  | done (hc : s.cs = .conn) (hq : s.seq = .xfWait) (r : Bytes) (hx : extracted t.hist = extracted s.hist)
      (hreq : requested t.hist = requested s.hist) (hrsp : responses s.par t.hist = responses s.par s.hist ++ [r])
      (hq' : t.seq = .tx)

/-- A step that ends in no connection, having extracted, requested and staged nothing, leaves the account. -/
theorem AccountMove.of_not_conn (hx : extracted t.hist = extracted s.hist) (hreq : requested t.hist = requested s.hist)
    (hrsp : responses s.par t.hist = responses s.par s.hist) (hc : t.cs ≠ .conn) : AccountMove s t :=
  .kept hx hreq hrsp fun h => (hc h).elim

/-- Every row of the step table is one of these (R174). -/
theorem Move.accountMove (m : Move s t) : AccountMove s t := by
  cases m with
  | reset | fin | rerr | fail | txErr => exact .of_not_conn rfl rfl rfl nofun
  | wait => exact .kept rfl rfl rfl fun hc => ⟨hc, Iff.rfl, rfl, rfl⟩
  | accept => exact .opened rfl rfl rfl rfl
  | drained hc hq => exact .kept rfl rfl rfl fun _ => ⟨hc, by simp [hq], rfl, rfl⟩
  | write hc hq b r =>
    have hstay : (writeByte b r s).seq ≠ .xfWait := by cases r <;> simp [writeByte]
    exact .kept rfl rfl rfl fun _ => ⟨hc, by simp [hstay, hq], rfl, rfl⟩
  | stop =>
    obtain ⟨-, he⟩ | ⟨-, -, he⟩ := takeStop_cases s
    · rw [he]
      exact .of_not_conn rfl rfl rfl nofun
    · rw [he]
      exact .kept rfl rfl rfl fun hc => ⟨hc, Iff.rfl, rfl, rfl⟩
  | feed hc hq d =>
    obtain ⟨-, he⟩ | ⟨-, he⟩ := feed_cases d s
    · rw [he]
      exact .of_not_conn rfl rfl rfl nofun
    · rw [he]
      exact .kept rfl rfl rfl fun _ => ⟨hc, by simp [hq], rfl, rfl⟩
  | unsup hc hq op p r hh hi => exact .unsup hc hq op p hi rfl rfl (by simp [responses, hi]) rfl
  | request hc hq op p r hh hi => exact .request hc hq op p hi rfl rfl (by simp [responses, hi]) rfl rfl rfl
  | done hc hq r =>
    obtain ⟨-, he⟩ | ⟨-, he⟩ := xfDone_cases r s
    · rw [he]
      exact .of_not_conn rfl rfl rfl nofun
    · rw [he]
      exact .done hc hq r rfl rfl rfl rfl
  | teardown =>
    obtain ⟨-, he⟩ | ⟨-, he⟩ := teardown_cases s <;> rw [he] <;> exact .of_not_conn rfl rfl rfl nofun

/-- Every row keeps the count of responses: a frame extracted owes one until its answer is staged (R71). -/
theorem Move.responseLaw (m : Move s t) (hlaw : ResponseLaw s) : ResponseLaw t := by
  intro hc
  rw [m.par_env.1]
  cases m.accountMove with
  | opened hx _ hrsp hq' => simp [hx, hrsp, hq']
  | kept hx _ hrsp hconn =>
    obtain ⟨hcs, hq, hop, hpay⟩ := hconn hc
    simpa only [hx, hrsp, hop, hpay, hq, ne_eq] using hlaw hcs
  | unsup hcs hq op p _ hx _ hrsp hq' =>
    have heven := (hlaw hcs).2 (by simp [hq])
    simp [hx, hrsp, hq', heven]
  | request hcs hq op p _ hx _ hrsp hq' hop hpay =>
    have heven := (hlaw hcs).2 (by simp [hq])
    simp [hx, hrsp, hq', hop, hpay, heven]
  | done hcs hq r hx _ hrsp hq' =>
    have howes := ((hlaw hcs).1 hq).1
    simp [hx, hrsp, hq', howes]

/-- Settles O49: no connection is open at reset, and every row keeps the count. -/
theorem oneResponsePerFrame : Obligations.OneResponsePerFrame :=
  ⟨by simp [ResponseLaw, State.reset], fun _ _ hlaw h => (step_move h).responseLaw hlaw⟩

/-- Every row keeps the requests: a frame extracted is requested in the same step if its opcode is supported, and else never
(R161, R162). -/
theorem Move.requestLaw (m : Move s t) (hlaw : RequestLaw s) : RequestLaw t := by
  unfold RequestLaw at hlaw ⊢
  rw [m.par_env.1]
  cases m.accountMove with
  | opened hx hreq => simp [hx, hreq]
  | kept hx hreq | done _ _ _ hx hreq => rw [hx, hreq, hlaw]
  | unsup _ _ op p hi hx hreq => simp [hx, hreq, hlaw, hi]
  | request _ _ op p hi hx hreq => simp [hx, hreq, hlaw, hi]

/-- Settles O50: nothing is requested at reset, and every row keeps the law. -/
theorem requestsAreTheSupportedFrames : Obligations.RequestsAreTheSupportedFrames :=
  ⟨rfl, fun _ _ hlaw h => (step_move h).requestLaw hlaw⟩

end Sys2Proof.Machine
end

section
/-! O5. Spelling and reading a header are inverse (R15, R64). -/

namespace Sys2Proof

/-- A value in range is read back from its own bytes, with nothing after them. -/
theorem headAt_beBytes_self {par : Params} {v : Nat} (hv : v < 2 ^ (8 * par.hdrBytes)) :
    headAt par (beBytes par.hdrBytes v) = some v := by
  rw [Nat.pow_mul] at hv
  simpa using headAt_beBytes hv []

/-- The header read from just the bytes of a header spells them. -/
theorem beBytes_of_headAt {par : Params} {bs : Bytes} {v : Nat} (hl : bs.length = par.hdrBytes) (h : headAt par bs = some v) :
    beBytes par.hdrBytes v = bs := by
  obtain ⟨-, rfl⟩ := headAt_eq_some.mp h
  rw [← hl, List.take_length, beBytes_beNat]

/-- The four bytes of a 32-bit value are its digits to the base 256. -/
theorem map_toNat_beBytes_four {v : Nat} (hv : v < 2 ^ 32) :
    (beBytes 4 v).map BitVec.toNat = [v / 2 ^ 24, v / 2 ^ 16 % 256, v / 2 ^ 8 % 256, v % 256] := by
  have htop : v / 2 ^ 24 % 256 = v / 2 ^ 24 := Nat.mod_eq_of_lt (by omega)
  simpa [beBytes] using htop

/-- Four bytes are spelled by their weighted sum. -/
theorem beBytes_four (b0 b1 b2 b3 : Byte) :
    beBytes 4 (b0.toNat * 2 ^ 24 + b1.toNat * 2 ^ 16 + b2.toNat * 2 ^ 8 + b3.toNat) = [b0, b1, b2, b3] := by
  have hval : beNat [b0, b1, b2, b3] = b0.toNat * 2 ^ 24 + b1.toNat * 2 ^ 16 + b2.toNat * 2 ^ 8 + b3.toNat := by
    simp [beNat, add_assoc]
  rw [← hval]
  exact beBytes_beNat [b0, b1, b2, b3]

/-- Settles O5: the default clauses are the general ones at four header bytes, with the bytes written out. -/
theorem bigEndianBytesRoundTrip : Obligations.BigEndianBytesRoundTrip :=
  ⟨fun _ hv => ⟨headAt_beBytes_self (par := {}) hv, map_toNat_beBytes_four hv⟩, beBytes_four,
    fun _ _ hv => headAt_beBytes_self hv, fun _ _ _ hl h => beBytes_of_headAt hl h⟩

end Sys2Proof
end

section
/-! O36. What a step does to the buffer, row by row of the step table (R67, R174). -/

namespace Sys2Proof.Machine

variable {s t : State}

/-- Every row leaves `buf`, appends a chunk to it, drops the frame at its head, or empties it. -/
theorem Move.buf_cases (m : Move s t) :
    t.buf = s.buf ∨
    (∃ d, rxReady s = true ∧ s.pins.rx = some (.chunk d) ∧ t.buf = s.buf ++ d) ∨
    (∃ op p more, s.cs = .conn ∧ s.seq = .drain ∧ headFrame s.par s.buf = .ok (op, p, more) ∧ t.buf = more) ∨
    (t.buf = [] ∧ (s.pins.rst = true ∨ stopTaken s = true ∨ (s.cs = .listen ∧ s.pins.acc = true) ∨ s.cs = .closed)) := by
  cases m with
  | reset h => exact .inr (.inr (.inr ⟨rfl, .inl h⟩))
  | stop h =>
    obtain ⟨-, he⟩ | ⟨-, -, he⟩ := takeStop_cases s
    · exact .inr (.inr (.inr ⟨by rw [he]; rfl, .inr (.inl h)⟩))
    · exact .inl (by rw [he]; rfl)
  | accept hc h => exact .inr (.inr (.inr ⟨rfl, .inr (.inr (.inl ⟨hc, h⟩))⟩))
  | feed hc hq d h =>
    obtain ⟨-, he⟩ | ⟨-, he⟩ := feed_cases d s
    · exact .inl (by rw [he]; rfl)
    · exact .inr (.inl ⟨d, rxReady_iff.mpr ⟨hc, hq⟩, h, by rw [he]; rfl⟩)
  | unsup hc hq op p r hh | request hc hq op p r hh =>
    obtain ⟨-, -, -, -, -, -, hr⟩ := headFrame_ok hh
    exact .inr (.inr (.inl ⟨op, p, r, hc, hq, hh, hr.symm⟩))
  | done _ _ r => obtain ⟨-, he⟩ | ⟨-, he⟩ := xfDone_cases r s <;> exact .inl (by rw [he]; rfl)
  | teardown hc =>
    refine .inr (.inr (.inr ⟨?_, .inr (.inr (.inr hc))⟩))
    obtain ⟨-, he⟩ | ⟨-, he⟩ := teardown_cases s <;> rw [he] <;> rfl
  | wait | fin | rerr | drained | fail | write | txErr => exact .inl rfl

/-- Settles O36: a step is a row of the step table from the state in which untaken offers wait, which has the same buffer. -/
theorem bufferIsNeverRewritten : Obligations.BufferIsNeverRewritten :=
  fun _ _ h => (step_move h).buf_cases

end Sys2Proof.Machine
end

section
/-! O60. A move of one instance sets that instance, a move of the host acts on each by itself (R72, R201). -/

namespace Sys2Proof.Machine

variable {y z : System} {ms : List SysMove}

/-- A move of instance `i` answers the instances with at most the one numbered `i` set anew. -/
theorem systemStep_inst {i : Nat} {p : Pins} (hs : y.script = .inst i p :: ms) (h : systemStep y = .next z) :
    z.script = ms ∧ (z.insts = y.insts ∨ ∃ t, z.insts = y.insts.set i t) := by
  unfold systemStep at h
  rw [hs] at h
  dsimp only at h
  split at h
  · cases h
    exact ⟨rfl, .inl rfl⟩
  · split at h
    · cases h
      exact ⟨rfl, .inr ⟨_, rfl⟩⟩
    · cases h
    · cases h

/-- A move of the host acts on every instance. -/
theorem systemStep_host {rst stop : Bool} (hs : y.script = .host rst stop :: ms) :
    systemStep y = .next { insts := y.insts.map (hostAct rst stop), script := ms } := by
  unfold systemStep
  rw [hs]

/-- `stop` is open exactly with none taken, in LISTEN, CONN or CLOSED (R194). -/
theorem stopOpen_iff {s : State} :
    stopOpen s = true ↔ s.stopReq = false ∧ (s.cs = .listen ∨ s.cs = .conn ∨ s.cs = .closed) := by
  simp [stopOpen, or_assoc]

/-- The host's `stop` is taken where it is open (R194, R195). -/
theorem hostAct_stop_of_open {s : State} (h : stopOpen s = true) : hostAct false true s = takeStop s := by
  simp [hostAct, h]

/-- The host's `stop` is ignored where it is not open (R194). -/
theorem hostAct_stop_of_not_open {s : State} (h : stopOpen s = false) : hostAct false true s = s := by
  simp [hostAct, h]

/-- Settles O60: setting one instance leaves the others, and each takes the host's reset or stop for itself. -/
theorem systemsShareNothing : Obligations.SystemsShareNothing := by
  refine ⟨fun y z i p ms hs h => ?_, fun y st ms hs => ?_, fun y ms hs => ?_⟩
  · obtain ⟨hscript, he | ⟨t, he⟩⟩ := systemStep_inst hs h
    · exact ⟨by rw [he], hscript, fun j _ => by rw [he]⟩
    · exact ⟨by rw [he, List.length_set], hscript, fun j hj => by rw [he, List.getElem?_set_ne hj.symm]⟩
  · refine ⟨_, systemStep_host hs, rfl, List.length_map _, fun j s hj => ?_⟩
    rw [List.getElem?_map, hj]
    rfl
  · refine ⟨_, systemStep_host hs, rfl, List.length_map _, fun j s hj => ?_⟩
    rw [List.getElem?_map, hj, Option.map_some]
    refine ⟨fun hr hc => ?_, fun hno => ?_⟩
    · rw [hostAct_stop_of_open (stopOpen_iff.mpr ⟨hr, hc⟩)]
      rfl
    · rw [hostAct_stop_of_not_open]
      rw [Bool.eq_false_iff, ne_eq, stopOpen_iff]
      rintro ⟨hr, hc⟩
      obtain h | h | h := hno <;> simp [h] at hr hc

end Sys2Proof.Machine
end

section
/-! O6, O7 and O8. The frame codec both ways, by the header codec and the opcode map (R80, R81, R85, R89). -/

namespace Sys2Proof

variable {par : Params} {op len h : Nat} {p more : Bytes}

/-- A header holds its two fields side by side (R81, R102). -/
theorem encodeHeader_eq_some :
    encodeHeader par op len = some h ↔ op < 2 ^ par.opBits ∧ len < 2 ^ par.lenBits ∧ h = op * 2 ^ par.lenBits + len := by
  unfold encodeHeader
  split
  · rename_i hfit
    rw [← Nat.shiftLeft_add_eq_or_of_lt hfit.2, Nat.shiftLeft_eq]
    simp [hfit, eq_comm]
  · rename_i hfit
    simpa using fun ho hl => (hfit ⟨ho, hl⟩).elim

/-- A header built is as wide as its two fields (R102). -/
theorem encodeHeader_lt (he : encodeHeader par op len = some h) : h < 2 ^ (par.opBits + par.lenBits) := by
  obtain ⟨ho, hl, rfl⟩ := encodeHeader_eq_some.mp he
  calc op * 2 ^ par.lenBits + len < (op + 1) * 2 ^ par.lenBits := by rw [Nat.add_mul]; omega
    _ ≤ 2 ^ par.opBits * 2 ^ par.lenBits := Nat.mul_le_mul_right _ ho
    _ = 2 ^ (par.opBits + par.lenBits) := (Nat.pow_add ..).symm

/-- The fields of a header built are those it was built from (R103). -/
theorem decodeHeader_of_encodeHeader (he : encodeHeader par op len = some h) : decodeHeader par h = (op, len) := by
  obtain ⟨ho, hl, rfl⟩ := encodeHeader_eq_some.mp he
  have hdiv : (op * 2 ^ par.lenBits + len) / 2 ^ par.lenBits = op := by
    rw [Nat.mul_comm, Nat.mul_add_div (by positivity), Nat.div_eq_of_lt hl, Nat.add_zero]
  rw [decodeHeader, Nat.shiftRight_eq_div_pow, hdiv, Nat.mod_eq_of_lt ho, Nat.mul_add_mod', Nat.mod_eq_of_lt hl]

/-- A header, as many payload bytes as it declares, and anything after them: that frame and the rest (R82, R143). -/
theorem headFrame_beBytes (hf : par.FormatOk) (he : encodeHeader par op p.length = some h) :
    headFrame par (beBytes par.hdrBytes h ++ p ++ more) = .ok (op, p, more) := by
  have hbytes : h < 256 ^ par.hdrBytes := by
    have hlt := encodeHeader_lt he
    rwa [hf.2.1, Nat.pow_mul] at hlt
  have hhead := headAt_beBytes hbytes (p ++ more)
  simp [headFrame, hhead, decodeHeader_of_encodeHeader he, slice, List.drop_append]

/-- A well-formed frame is spelled by its header and its payload (R80, R89). -/
theorem encode_of_wellFormed {i : Instr} (hf : par.FormatOk) (hi : i.WellFormed par) :
    ∃ h, encodeHeader par i.op i.payload.length = some h ∧ encode par i = some (beBytes par.hdrBytes h ++ i.payload) := by
  obtain ⟨hop, hle⟩ := hi
  obtain ⟨-, -, -, hmax⟩ := hf
  have hlen : i.payload.length < 2 ^ par.lenBits := by omega
  have he := encodeHeader_eq_some.mpr ⟨hop, hlen, rfl⟩
  exact ⟨_, he, by rw [encode, frameOf, he, Option.map_some]⟩

/-- Settles O6: the header gives back opcode and length, and the opcode map the frame. -/
theorem decodeOfEncode : Obligations.DecodeOfEncode := by
  intro par i more hf hi
  obtain ⟨h, he, henc⟩ := encode_of_wellFormed hf hi
  exact ⟨_, henc, by simp, decode_ok.mpr (headFrame_beBytes hf he)⟩

/-- Settles O7: the bytes up to the rest are those the head frame's opcode and payload are spelled with. -/
theorem encodeOfDecode : Obligations.EncodeOfDecode := by
  intro par bs more i hf hd
  have hi := decode_wellFormed hf hd
  obtain ⟨h, -, henc⟩ := encode_of_wellFormed hf hi
  have hbs := Machine.wire_append_of_headFrame hf (decode_ok.mp hd)
  rw [Machine.wire, ← encode, henc, Option.getD_some] at hbs
  exact ⟨hi, _, henc, hbs.symm⟩

/-- Settles O8: each sequence is short enough to decode by evaluation. -/
theorem specWordsDecode : Obligations.SpecWordsDecode := by
  unfold Obligations.SpecWordsDecode
  decide

end Sys2Proof
end

section
/-! O1 to O4. The header codec: the fields, where they are refused, and the bytes they are read from (R100 to R103). -/

namespace Sys2Proof

variable {par : Params} {op len h : Nat} {bs : Bytes}

/-- Within the field widths the header is the opcode above the length (R102). -/
theorem encodeHeader_of_lt (ho : op < 2 ^ par.opBits) (hl : len < 2 ^ par.lenBits) :
    encodeHeader par op len = some ((op <<< par.lenBits) ||| len) :=
  if_pos ⟨ho, hl⟩

/-- Outside the field widths the header is refused, never masked (R102). -/
theorem encodeHeader_of_not_lt (hn : ¬ (op < 2 ^ par.opBits ∧ len < 2 ^ par.lenBits)) : encodeHeader par op len = none :=
  if_neg hn

/-- A header built is the opcode above the length and loses nothing in the header's width (R102). -/
theorem encodeHeader_of_lt_and_fits (ho : op < 2 ^ par.opBits) (hl : len < 2 ^ par.lenBits) :
    encodeHeader par op len = some ((op <<< par.lenBits) ||| len) ∧
      (op <<< par.lenBits) ||| len < 2 ^ (par.opBits + par.lenBits) :=
  ⟨encodeHeader_of_lt ho hl, encodeHeader_lt (encodeHeader_of_lt ho hl)⟩

/-- Settles O3: the default clauses are the general ones at five opcode bits and 27 length bits. -/
theorem encodeHeaderRefusesOutOfRange : Obligations.EncodeHeaderRefusesOutOfRange :=
  ⟨fun _ _ ho hl => encodeHeader_of_lt_and_fits (par := {}) ho hl, fun _ _ hn => encodeHeader_of_not_lt (par := {}) hn,
    fun _ _ _ ho hl => encodeHeader_of_lt_and_fits ho hl, fun _ _ _ hn => encodeHeader_of_not_lt hn⟩

/-- Fields within their widths have a header, which is read back as these fields (R103). -/
theorem exists_encodeHeader_decodeHeader (ho : op < 2 ^ par.opBits) (hl : len < 2 ^ par.lenBits) :
    ∃ h, encodeHeader par op len = some h ∧ decodeHeader par h = (op, len) :=
  ⟨_, encodeHeader_of_lt ho hl, decodeHeader_of_encodeHeader (encodeHeader_of_lt ho hl)⟩

/-- Settles O4: the default clauses are the general ones at five opcode bits and 27 length bits. -/
theorem headerRoundTrip : Obligations.HeaderRoundTrip :=
  ⟨fun _ _ ho hl => exists_encodeHeader_decodeHeader (par := {}) ho hl,
    fun _ hh => Machine.encodeHeader_decodeHeader (par := {}) hh,
    fun _ _ _ ho hl => exists_encodeHeader_decodeHeader ho hl, fun _ _ hh => Machine.encodeHeader_decodeHeader hh⟩

/-- A header no wider than its two fields is split by a shift and a mask (R100). -/
theorem decodeHeader_of_lt (hh : h < 2 ^ (par.opBits + par.lenBits)) :
    decodeHeader par h = (h >>> par.lenBits, h &&& (2 ^ par.lenBits - 1)) := by
  have hop : h >>> par.lenBits < 2 ^ par.opBits := by
    rw [Nat.shiftRight_eq_div_pow]
    exact Nat.div_lt_of_lt_mul (by rwa [← Nat.pow_add, Nat.add_comm])
  rw [decodeHeader, Nat.mod_eq_of_lt hop, Nat.and_two_pow_sub_one_eq_mod]

/-- Settles O1: the default clause is the general one at five opcode bits and 27 length bits, and the corner cases are evaluated. -/
theorem decodeHeaderSplitsFields : Obligations.DecodeHeaderSplitsFields :=
  ⟨fun _ _ hh => decodeHeader_of_lt hh, fun _ hh => decodeHeader_of_lt (par := {}) hh, by decide⟩

/-- A big-endian value is the sum of its bytes, each times its power of 256 (R15, R101). -/
theorem beNat_eq_sum (bs : Bytes) :
    beNat bs = ∑ k ∈ Finset.range bs.length, (bs.getD k 0).toNat * 256 ^ (bs.length - 1 - k) := by
  induction bs with
  | nil => rfl
  | cons b bs ih =>
    rw [beNat, ih, List.length_cons, Finset.sum_range_succ', Nat.add_comm]
    simp only [List.getD_cons_succ, List.getD_cons_zero, Nat.add_sub_cancel, Nat.sub_zero, Nat.sub_sub, Nat.add_comm 1]

/-- Of enough bytes the header is the weighted sum of the first HDR_BYTES (R101). -/
theorem headAt_eq_sum (hl : par.hdrBytes ≤ bs.length) :
    headAt par bs = some (∑ k ∈ Finset.range par.hdrBytes, (bs.getD k 0).toNat * 256 ^ (par.hdrBytes - 1 - k)) := by
  refine headAt_eq_some.mpr ⟨hl, ?_⟩
  rw [beNat_eq_sum, List.length_take, Nat.min_eq_left hl]
  refine Finset.sum_congr rfl fun k hk => ?_
  rw [List.getD_eq_getElem?_getD, List.getD_eq_getElem?_getD, List.getElem?_take_of_lt (Finset.mem_range.mp hk)]

/-- Settles O2: four bytes by default, and the weighted sum of the first HDR_BYTES in every format. -/
theorem headAtIsBigEndian : Obligations.HeadAtIsBigEndian :=
  ⟨Machine.headAt_four, fun _ hl => headAt_eq_none.mpr hl, fun _ _ hl => headAt_eq_none.mpr hl,
    fun _ _ hl => headAt_eq_sum hl⟩

end Sys2Proof
end

section
/-! O9. The class of an opcode is its membership in the table (R104). -/

namespace Sys2Proof.Machine

variable {par : Params} {op : Nat}

theorem classify_eq_supported : classify par op = .supported ↔ op ∈ par.validOps := by
  unfold classify
  split <;> rename_i hop <;> simp [hop]

theorem classify_eq_unsupported : classify par op = .unsupported ↔ op ∉ par.validOps := by
  rw [← classify_eq_supported]
  cases classify par op <;> simp

/-- The default table holds the five one-hot opcodes (R12, R104). -/
theorem mem_validOps_default : op ∈ ({} : Params).validOps ↔ op = 1 ∨ op = 2 ∨ op = 4 ∨ op = 8 ∨ op = 16 := by
  simp [Config.validOpsDefault]

/-- Settles O9: the corner cases are evaluated by the default table. -/
theorem classifyIsByTheTable : Obligations.ClassifyIsByTheTable :=
  ⟨fun _ _ => ⟨classify_eq_supported, classify_eq_unsupported⟩, fun _ => mem_validOps_default, by decide⟩

end Sys2Proof.Machine
end

section
/-! O53. In DRAIN and TX FR takes no offer, so those of the first step stand through the whole response (R5, R164). -/

namespace Sys2Proof.Machine

variable {s : State} {w : Pins} {more : List Pins}

/-- Where FR is ready on no channel, the accept and the ingress transfer stand, and an answer does not (R5; log entry 19). -/
theorem nextEnv_of_not_ready (ha : accReady s = false) (hr : rxReady s = false) (hx : xrReady s = false) :
    nextEnv s = waiting { s.pins with xr := none } s.env.tail := by
  simp [nextEnv, untaken, accOpen, rxOpen, waiting, ha, hr, hx]

/-- With neither `rst` nor `stop` asserted the step is the control point's (R196). -/
theorem pointEnabled_of_quiet (hr : s.pins.rst = false) (hs : s.pins.stop = false) : pointEnabled s = true := by
  simp [pointEnabled, stopTaken, hr, hs]

/-- In TX an accepted byte is written (R164). -/
theorem txPoint_of_accept {b : Byte} {r : Bytes} (ht : s.txq = b :: r) (hp : s.pins.tx = .accept) :
    txPoint s = .next (writeByte b r s).tick := by
  simp [txPoint, ht, hp]

/-- In TX the consumer accepts a byte while earlier offers wait, and they wait on (R5, R164). -/
theorem step_of_byte_accepted {b : Byte} {r : Bytes} (hc : s.cs = .conn) (hq : s.seq = .tx) (ht : s.txq = b :: r)
    (hw : w.xr = none) (he : s.env = waiting w ({ tx := .accept } :: more)) :
    step s = .next { s with
      txq := r, seq := if r.isEmpty then .drain else .tx, env := waiting w more, hist := .txByte b :: s.hist } := by
  have henv : s.env = { acc := w.acc, rx := w.rx, xr := none, tx := .accept } :: more := by
    rw [he, waiting_cons rfl rfl rfl, hw]
  have hpins : s.pins = { acc := w.acc, rx := w.rx, xr := none, tx := .accept } := by simp [State.pins, henv]
  obtain ⟨ha, hr, -, hx, -⟩ := channels_tx hc hq
  have hnext : nextEnv s = waiting w more := by
    rw [nextEnv_of_not_ready ha hr hx, hpins, henv]
    simp [waiting, hw]
  rw [step_eq_pointStep (pointEnabled_of_quiet (by simp [hpins]) (by simp [hpins])), pointStep_tx (s := s.hold) hc hq,
    txPoint_of_accept (s := s.hold) ht (by simp [hpins]), ← hnext]
  rfl

/-- A consumer that accepts every byte gets the whole response, and the offers that waited before it wait after it: by induction
on the bytes staged (R5, R164). -/
theorem run_of_response_accepted (q : Bytes) (hc : s.cs = .conn) (hq : s.seq = .tx) (ht : s.txq = q) (hne : q ≠ [])
    (hw : w.xr = none) (he : s.env = waiting w (List.replicate q.length { tx := .accept } ++ more)) :
    Host.Core.run Sys2Proof.core q.length s = .next { s with
      txq := [], seq := .drain, env := waiting w more, hist := (q.map .txByte).reverse ++ s.hist } := by
  induction q generalizing s with
  | nil => exact (hne rfl).elim
  | cons b r ih =>
    refine (run_succ (step_of_byte_accepted hc hq ht hw he) r.length).trans ?_
    cases r with
    | nil => rfl
    | cons b' r' =>
      refine (ih (s := { s with txq := _, seq := .tx, env := _, hist := .txByte b :: s.hist }) hc rfl rfl (by simp)
        rfl).trans ?_
      simp

/-- In DRAIN an unsupported frame stages the error response, and an accept or ingress transfer offered with the step waits
(R5, R143, R161). -/
theorem step_of_unsupported {op : Nat} {x r : Bytes} (hr : s.pins.rst = false) (hs : s.pins.stop = false) (hc : s.cs = .conn)
    (hq : s.seq = .drain) (hh : headFrame s.par s.buf = .ok (op, x, r)) (hi : op ∉ s.par.validOps) :
    step s = .next { dispatchUnsup (latchFrame op x s) with env := waiting { s.pins with xr := none } s.env.tail } := by
  have hclass : classify s.par op = .unsupported := classify_eq_unsupported.mpr hi
  obtain ⟨ha, hrx, hx, -⟩ := channels_drain hc hq
  rw [step_eq_pointStep (pointEnabled_of_quiet hr hs), pointStep_drain (s := s.hold) hc hq, drainPoint_eq, hold_par,
    hold_buf, hh, ← nextEnv_of_not_ready ha hrx hx]
  simp only [extract, hold_par, hclass]
  rfl

/-! What the bytes of a response add to the views of the connection. -/

theorem egress_txBytes (q : Bytes) (h : List Event) : egress ((q.map .txByte).reverse ++ h) = egress h ++ q := by
  induction q generalizing h with
  | nil => simp
  | cons b q ih => simp [ih, egress]

theorem requested_txBytes (q : Bytes) (h : List Event) : requested ((q.map .txByte).reverse ++ h) = requested h := by
  induction q generalizing h with
  | nil => rfl
  | cons b q ih => simp [ih, requested]

/-- Settles O53: the drain step stages the framed ERROR_TEXT, and the consumer takes it byte by byte. -/
theorem unsupportedFrameEndToEnd : Obligations.UnsupportedFrameEndToEnd := by
  refine ⟨fun s op x rem p more hf hc hq hh hi hr hs he => ?_, by decide⟩
  have hpins : s.pins = p := by simp [State.pins, he]
  obtain ⟨-, -, -, -, -, -, hrem⟩ := headFrame_ok hh
  rw [← frame_length s.par s.par.errorText] at he ⊢
  have hfirst := step_of_unsupported (hpins ▸ hr) (hpins ▸ hs) hc hq hh hi
  rw [hpins, he, List.tail_cons] at hfirst
  have hwrite := run_of_response_accepted (w := { p with xr := none }) (more := more) (frame s.par s.par.errorText)
    (s := { dispatchUnsup (latchFrame op x s) with env := _ }) hc rfl rfl (frame_ne_nil hf _) rfl rfl
  refine ⟨_, (run_succ hfirst _).trans hwrite, hc, rfl, hrem.symm, rfl, rfl, rfl, ?_, ?_⟩
  · simp [requested_txBytes, requested]
  · simp [egress_txBytes, egress, frame]

end Sys2Proof.Machine
end

section
/-! O56 to O59. What a transform unit within its contract answers, whatever its open parameters (R110 to R115). -/

namespace Sys2Proof.Machine

variable {par : Params} {tp : TuParams} {p r : Bytes}

/-! The results admitted, by opcode. -/

theorem Admitted.upper (h : Admitted par tp 1 p (.ok r)) : r = utf8 ((tp.repair p).flatMap tp.upperMap) := h.2
theorem Admitted.lower (h : Admitted par tp 2 p (.ok r)) : r = utf8 ((tp.repair p).flatMap tp.lowerMap) := h.2
theorem Admitted.reverse (h : Admitted par tp 4 p (.ok r)) : r = utf8 (tp.repair p).reverse := h.2
theorem Admitted.shuffle (h : Admitted par tp 8 p (.ok r)) : ∃ t, t.Perm (tp.repair p) ∧ r = utf8 t := h.2
theorem Admitted.randomize (h : Admitted par tp 16 p (.ok r)) : RandomizeAnswer tp p r := h.2

/-! The text of a payload, where the contract fixes it. -/

/-- No byte of an encoded character is FF: a lead byte is at most F4, a continuation byte at most BF. -/
theorem utf8Char_lt_ff (c : Char) : ∀ b ∈ utf8Char c, b.toNat < 0xFF := by
  have hc := char_toNat_lt c
  unfold utf8Char
  split
  · simp; omega
  · split
    · simp; omega
    · split
      · simp; omega
      · simp; omega

/-- A character whose bytes are ASCII or FF is an ASCII character. -/
theorem ascii_of_utf8Char {c : Char} (h : ∀ b ∈ utf8Char c, b.toNat < 0x80 ∨ b = 0xFF) : c.toNat < 0x80 := by
  by_contra hhigh
  obtain ⟨b, hb⟩ := List.exists_mem_of_ne_nil _ (utf8Char_ne_nil c)
  obtain hlow | rfl := h b hb
  · exact (utf8Char_high hhigh).2 b hb hlow
  · exact absurd (utf8Char_lt_ff c _ hb) (by decide)

/-- Of ASCII bytes and FF bytes every repair keeps the ASCII bytes, each as its character (R110). -/
theorem RepairOk.repair_ascii_ff (h : RepairOk tp.repair) (hp : ∀ b ∈ p, b.toNat < 0x80 ∨ b = 0xFF) :
    tp.repair p = (p.filter fun b => b.toNat < 0x80).map fun b => Char.ofNat b.toNat := by
  rw [← h.ascii, eq_comm, List.filter_eq_self]
  intro c hc
  have hbytes : utf8Char c ⊆ p := fun b hb => (h.drops p).subset (List.mem_flatMap.mpr ⟨c, hc, hb⟩)
  exact decide_eq_true (ascii_of_utf8Char fun b hb => hp b (hbytes hb))

/-- A payload of ASCII bytes is its characters (R110). -/
theorem RepairOk.repair_ascii (h : RepairOk tp.repair) (hp : ∀ b ∈ p, b.toNat < 0x80) :
    tp.repair p = p.map fun b => Char.ofNat b.toNat := by
  have hexact := h.exact (p.map fun b => Char.ofNat b.toNat)
  rwa [utf8_map_ascii hp] at hexact

/-! The case maps on the letters the examples pin (R111, R112). -/

/-- A map that takes the character of each byte to one with a one-byte encoding maps the payload byte by byte. -/
theorem utf8_flatMap_bytes {m : Char → List Char} {f : Byte → Byte}
    (h : ∀ b ∈ p, utf8 (m (Char.ofNat b.toNat)) = [f b]) :
    utf8 ((p.map fun b => Char.ofNat b.toNat).flatMap m) = p.map f := by
  induction p with
  | nil => rfl
  | cons b p ih =>
    have htail := ih fun x hx => h x (by simp [hx])
    have hhead := h b (by simp)
    simp only [utf8, List.map_cons, List.flatMap_cons, List.flatMap_append] at htail hhead ⊢
    rw [htail, hhead, List.singleton_append]

/-- A pinned letter's upper case (R111). -/
theorem TuParams.Ok.utf8_upperMap (h : tp.Ok) {b : Byte} (hb : b ∈ ([0x61, 0x62, 0x63, 0x41, 0x43] : Bytes)) :
    utf8 (tp.upperMap (Char.ofNat b.toNat)) = [if b.toNat < 0x61 then b else b - 0x20] := by
  obtain ⟨ha, hb', hc, hA, hC⟩ := h.upper
  simp only [List.mem_cons, List.not_mem_nil, or_false] at hb
  obtain rfl | rfl | rfl | rfl | rfl := hb
  · exact congrArg utf8 ha
  · exact congrArg utf8 hb'
  · exact congrArg utf8 hc
  · exact congrArg utf8 hA
  · exact congrArg utf8 hC

/-- A pinned letter's lower case (R112). -/
theorem TuParams.Ok.utf8_lowerMap (h : tp.Ok) {b : Byte} (hb : b ∈ ([0x41, 0x62, 0x43] : Bytes)) :
    utf8 (tp.lowerMap (Char.ofNat b.toNat)) = [if b.toNat < 0x61 then b + 0x20 else b] := by
  obtain ⟨hA, hb', hC⟩ := h.lower
  simp only [List.mem_cons, List.not_mem_nil, or_false] at hb
  obtain rfl | rfl | rfl := hb
  · exact congrArg utf8 hA
  · exact congrArg utf8 hb'
  · exact congrArg utf8 hC

/-- Settles O56: the payload is its characters, and the maps are fixed on each of them. -/
theorem pinnedLettersForceTheCase : Obligations.PinnedLettersForceTheCase := by
  intro par tp p r htp
  constructor
  · intro hp hr
    have hascii : ∀ b ∈ p, b.toNat < 0x80 := fun b hb =>
      (by decide : ∀ b ∈ ([0x61, 0x62, 0x63, 0x41, 0x43] : Bytes), b.toNat < 0x80) b (hp b hb)
    rw [hr.upper, htp.repair.repair_ascii hascii]
    exact utf8_flatMap_bytes fun b hb => htp.utf8_upperMap (hp b hb)
  · intro hp hr
    have hascii : ∀ b ∈ p, b.toNat < 0x80 := fun b hb =>
      (by decide : ∀ b ∈ ([0x41, 0x62, 0x43] : Bytes), b.toNat < 0x80) b (hp b hb)
    rw [hr.lower, htp.repair.repair_ascii hascii]
    exact utf8_flatMap_bytes fun b hb => htp.utf8_lowerMap (hp b hb)

/-- Settles O57: the payload decodes to the text, and a permutation of its characters has as many bytes. -/
theorem reverseAndShuffleKeepLength : Obligations.ReverseAndShuffleKeepLength := by
  intro par tp t r htp
  refine ⟨fun hr => ?_, fun hr => ?_, fun hr => ?_⟩
  · have hrev : r = utf8 t.reverse := by rw [hr.reverse, htp.repair.exact]
    exact ⟨hrev, by rw [hrev, utf8_length_perm t.reverse_perm]⟩
  · obtain ⟨t', hperm, rfl⟩ := hr.shuffle
    rw [htp.repair.exact] at hperm
    exact ⟨utf8_length_perm hperm, t', hperm, rfl⟩
  · obtain ⟨t', hperm, rfl⟩ := hr.shuffle
    have hempty : tp.repair [] = [] := htp.repair.exact []
    rw [hempty, List.perm_nil] at hperm
    rw [hperm, utf8_nil]

/-- A mutation keeps a character: some repetition is not zero, or the first character stands alone (R115). -/
theorem Mutation.ne_nil {t t' : List Char} (h : Mutation t t') : t' ≠ [] := by
  obtain ⟨ks, hlen, ⟨k, hk, hpos⟩, rfl⟩ | ⟨c, -, rfl⟩ := h
  · obtain ⟨i, hi, rfl⟩ := List.mem_iff_getElem.mp hk
    have hmem : List.replicate ks[i] t[i] ∈ List.zipWith List.replicate ks t :=
      List.mem_iff_getElem.mpr ⟨i, by simp; omega, by simp⟩
    intro hnil
    exact hpos (by simpa using List.flatten_eq_nil_iff.mp hnil _ hmem)
  · simp

/-- Settles O58: the text is not empty, so the result encodes a mutation of it. -/
theorem randomizeIsNeverEmpty : Obligations.RandomizeIsNeverEmpty := by
  intro par tp p r _ hne hr
  obtain ⟨hempty, -⟩ | ⟨t, hmut, rfl⟩ := hr.randomize
  · exact (hne hempty).elim
  · exact fun hnil => hmut.ne_nil (utf8_eq_nil.mp hnil)

/-- Settles O59: the text is the ASCII bytes' characters, which REVERSE and UPPER take as they are. -/
theorem illFormedByteIsDropped : Obligations.IllFormedByteIsDropped := by
  intro par tp p r htp
  constructor
  · intro hp hr
    rw [hr.reverse, htp.repair.repair_ascii_ff hp, ← List.map_reverse, utf8_map_ascii (by simp)]
  · intro hp hr
    have hff : ∀ b ∈ p, b.toNat < 0x80 ∨ b = 0xFF := fun b hb =>
      (by decide : ∀ b ∈ ([0x61, 0x62, 0x63, 0x41, 0x43, 0xFF] : Bytes), b.toNat < 0x80 ∨ b = 0xFF) b (hp b hb)
    have hletter : ∀ b ∈ p.filter (fun b => b.toNat < 0x80), b ∈ ([0x61, 0x62, 0x63, 0x41, 0x43] : Bytes) := by
      intro b hb
      obtain ⟨hbp, hlow⟩ := List.mem_filter.mp hb
      exact (by decide : ∀ b ∈ ([0x61, 0x62, 0x63, 0x41, 0x43, 0xFF] : Bytes), b.toNat < 0x80 →
        b ∈ ([0x61, 0x62, 0x63, 0x41, 0x43] : Bytes)) b (hp b hbp) (of_decide_eq_true hlow)
    rw [hr.upper, htp.repair.repair_ascii_ff hff]
    exact utf8_flatMap_bytes fun b hb => htp.utf8_upperMap (hletter b hb)

end Sys2Proof.Machine
end

section
/-! The drain step by its three outcomes (R142, R143, R161, R162), said once. With it O11, O13, O14 and O15. -/

namespace Sys2Proof.Machine

variable {s t : State} {op : Nat} {p r : Bytes}

/-! EXTRACT, outcome by outcome. -/

/-- An unsupported frame is taken and the error response staged (R161). -/
theorem extract_of_unsupported (hi : classify s.par op = .unsupported) :
    extract op p s = .next (dispatchUnsup (latchFrame op p s)).tick := by
  simp [extract, hi]

/-- A supported frame is taken when the transform unit takes its request (R162). -/
theorem extract_of_request_taken (hi : classify s.par op = .supported) (hr : s.pins.xqReady = true) :
    extract op p s = .next (dispatchXf (latchFrame op p s)).tick := by
  simp [extract, hi, hr]

/-- A supported frame stays where it is while the transform unit takes no request (R162). -/
theorem extract_of_request_held (hi : classify s.par op = .supported) (hr : s.pins.xqReady = false) :
    extract op p s = .next s.tick := by
  simp [extract, hi, hr]

/-- Settles O11: a supported opcode's meaning is the extraction with its request, and the constructors' opcodes are in the
default table. -/
theorem supportedFrameIsRequested : Obligations.SupportedFrameIsRequested := by
  refine ⟨fun i s hi hr => ?_, fun i s hi hr => ?_, fun p i op hmem => ?_⟩
  · rw [exec_eq_extract, extract_of_request_taken (classify_eq_supported.mpr hi) hr]
    rfl
  · rw [exec_eq_extract, extract_of_request_held (classify_eq_supported.mpr hi) hr]
    rfl
  · simp only [List.mem_cons, Prod.mk.injEq, List.not_mem_nil, or_false] at hmem
    obtain ⟨rfl, rfl⟩ | ⟨rfl, rfl⟩ | ⟨rfl, rfl⟩ | ⟨rfl, rfl⟩ | ⟨rfl, rfl⟩ := hmem <;> exact ⟨rfl, rfl, by decide⟩

/-- A frame taken moves every byte behind it down by the frame's length (R60, R143). -/
theorem memByte_of_buf_drop {n : Nat} (h : t.buf = s.buf.drop n) (a : Nat) : memByte t a = memByte s (a + n) := by
  rw [memByte, memByte, h, List.getElem?_drop, Nat.add_comm]

/-- Settles O13: each of the three outcomes of the extraction leaves these fields, and only a frame taken moves bytes. -/
theorem frameRunLeavesTheRest : Obligations.FrameRunLeavesTheRest := by
  intro i s t h
  rw [exec_eq_extract] at h
  obtain ⟨hi, rfl⟩ | ⟨hi, hr, rfl⟩ | ⟨hi, hr, rfl⟩ := extract_next h
  · have hop := classify_eq_unsupported.mp hi
    exact ⟨rfl, rfl, rfl, rfl, rfl, fun hin => (hop hin).elim, fun _ => memByte_of_buf_drop rfl,
      fun hin => (hop hin).elim⟩
  · exact ⟨rfl, rfl, rfl, rfl, rfl, fun _ => rfl, fun _ => memByte_of_buf_drop rfl,
      fun _ hbusy => by simp [hr] at hbusy⟩
  · have hop := classify_eq_supported.mp hi
    exact ⟨rfl, rfl, rfl, rfl, rfl, fun _ => rfl, fun htaken => by simp [hop, hr] at htaken,
      fun _ _ => ⟨fun _ => rfl, rfl, rfl, rfl, rfl, rfl, rfl⟩⟩

/-! The drain step. -/

/-- With a frame at the head of `buf` DRAIN extracts it (R143). -/
theorem step_of_headFrame (he : pointEnabled s = true) (hc : s.cs = .conn) (hq : s.seq = .drain)
    (hh : headFrame s.par s.buf = .ok (op, p, r)) : step s = extract op p s.hold := by
  rw [step_eq_pointStep he, pointStep_drain (s := s.hold) hc hq, drainPoint_eq, hold_par, hold_buf, hh]

/-- Without one DRAIN goes back to RX (R142). -/
theorem drainPoint_of_not_frameReady (hp : phase s.par s.buf ≠ .frameReady) :
    drainPoint s = .next { s with seq := .rx }.tick := by
  rw [drainPoint_eq]
  cases hh : headFrame s.par s.buf with
  | error e => rfl
  | ok x => exact (hp (phase_frameReady_iff.mpr ⟨_, _, _, hh⟩)).elim

/-- Settles O14: what decodes to `i` has the opcode and the payload of `i` at its head, which is all that `exec` runs on. -/
theorem stepRunsTheDecodedFrame : Obligations.StepRunsTheDecodedFrame :=
  ⟨fun s i _ he hc hq hd => (step_of_headFrame he hc hq (decode_ok.mp hd)).trans (exec_eq_extract i s.hold).symm,
    fun _ => rfl⟩

/-- Settles O15: in phase FrameReady the head frame is sliced out and its class decides, in any other FR goes back to RX. -/
theorem drainSlicesTheHeadFrame : Obligations.DrainSlicesTheHeadFrame := by
  intro s he hc hq
  constructor
  · intro hp
    rw [step_eq_pointStep he, pointStep_drain (s := s.hold) hc hq, drainPoint_of_not_frameReady (s := s.hold) hp]
    rfl
  · intro hp
    obtain ⟨op, pay, r, hh⟩ := phase_frameReady_iff.mp hp
    obtain ⟨hd, hhead, rfl, hlen, hslice, hfits, -⟩ := headFrame_ok hh
    have hstep := step_of_headFrame he hc hq hh
    refine ⟨hd, _, pay.length, pay, hhead, Prod.ext rfl hlen.symm, memRead_eq_some.mpr ⟨hfits, hslice⟩, fun hi => ?_,
      fun hi hr => ?_, fun hi hr t ht => ?_⟩
    · rw [hstep, extract_of_unsupported (s := s.hold) hi]
      rfl
    · rw [hstep, extract_of_request_taken (s := s.hold) hi hr]
      rfl
    · rw [hstep, extract_of_request_held (s := s.hold) hi hr] at ht
      cases ht
      exact ⟨⟨rfl, rfl, rfl, rfl, rfl, rfl, rfl, rfl, rfl, rfl⟩, rfl⟩

end Sys2Proof.Machine
end

section
/-! O17. A chunk in RX is fed; anywhere else FR does not look at it (R7, R141). -/

namespace Sys2Proof.Machine

variable {s : State} {d : Bytes}

/-- In RX a chunk of a legal size is fed (R141). -/
theorem rxPoint_of_chunk (hd : s.pins.rx = some (.chunk d)) (hn : 1 ≤ d.length) (hm : d.length ≤ s.par.chunkMax) :
    rxPoint s = .next (feed d s).tick := by
  simp [rxPoint, hd, hn, hm]

/-- Settles O17: the fault and the append are the two cases of FEED, and outside RX the ingress channel is not read (O38). -/
theorem feedAppendsOrFaults : Obligations.FeedAppendsOrFaults := by
  refine ⟨fun s d he hc hq hd hn hm => ?_, fun s p more henv hno => ?_⟩
  · rw [step_eq_pointStep he, pointStep_rx (s := s.hold) hc hq, rxPoint_of_chunk (s := s.hold) hd hn hm, feed,
      apply_ite State.tick]
    rfl
  · have hready : rxReady s = false := by rwa [Bool.eq_false_iff, ne_eq, rxReady_iff]
    obtain ⟨-, hrx, -⟩ := unreadyChannelsAreNotRead s p more henv
    exact hrx hready none

end Sys2Proof.Machine
end

section
/-! O35. Where each control point leads (R174). -/

namespace Sys2Proof.Machine

variable {s t : State}

theorem listenPoint_edge (hc : s.cs = .listen) (h : listenPoint s = .next t) :
    t.cs = .listen ∨ (t.cs = .conn ∧ t.seq = .rx) := by
  unfold listenPoint at h
  split at h <;> cases h
  · exact .inr ⟨rfl, rfl⟩
  · exact .inl hc

theorem rxPoint_edge (hc : s.cs = .conn) (hq : s.seq = .rx) (h : rxPoint s = .next t) :
    (t.cs = .conn ∧ (t.seq = .rx ∨ t.seq = .drain)) ∨ t.cs = .closed ∨ t.cs = .halted := by
  unfold rxPoint at h
  split at h
  · cases h
    exact .inl ⟨hc, .inl hq⟩
  · rename_i d hd
    split at h <;> cases h
    obtain ⟨-, hfeed⟩ | ⟨-, hfeed⟩ := feed_cases d s <;> rw [hfeed]
    · exact .inr (.inr rfl)
    · exact .inl ⟨hc, .inr rfl⟩
  · cases h
    exact .inr (.inl rfl)
  · cases h
    exact .inr (.inl rfl)

theorem drainPoint_edge (hc : s.cs = .conn) (hq : s.seq = .drain) (h : drainPoint s = .next t) :
    t.cs = .conn ∧ (t.seq = .rx ↔ phase s.par s.buf ≠ .frameReady) := by
  by_cases hp : phase s.par s.buf = .frameReady
  · obtain ⟨op, p, r, hh⟩ := phase_frameReady_iff.mp hp
    rw [drainPoint_eq, hh] at h
    obtain ⟨-, rfl⟩ | ⟨-, -, rfl⟩ | ⟨-, -, rfl⟩ := extract_next h <;> exact ⟨hc, by simp [hp, hq]⟩
  · rw [drainPoint_of_not_frameReady hp] at h
    cases h
    exact ⟨hc, by simp [hp]⟩

theorem xfWaitPoint_edge (hc : s.cs = .conn) (hq : s.seq = .xfWait) (h : xfWaitPoint s = .next t) :
    (t.cs = .conn ∧ (t.seq = .xfWait ∨ t.seq = .tx)) ∨ t.cs = .closed ∨ t.cs = .halted := by
  unfold xfWaitPoint at h
  split at h <;> cases h
  · exact .inl ⟨hc, .inl hq⟩
  · rename_i r hr
    obtain ⟨-, hdone⟩ | ⟨-, hdone⟩ := xfDone_cases r s <;> rw [hdone]
    · exact .inr (.inr rfl)
    · exact .inl ⟨hc, .inr rfl⟩
  · exact .inr (.inl rfl)

theorem txPoint_edge (hc : s.cs = .conn) (hq : s.seq = .tx) (h : txPoint s = .next t) :
    (t.cs = .conn ∧ (t.seq = .tx ∨ t.seq = .drain)) ∨ t.cs = .closed := by
  unfold txPoint at h
  split at h
  · cases h
  · rename_i b r ht
    split at h <;> cases h
    · exact .inl ⟨hc, .inl hq⟩
    · cases r
      · exact .inl ⟨hc, .inr rfl⟩
      · exact .inl ⟨hc, .inl rfl⟩
    · exact .inr rfl

theorem teardown_edge (s : State) : (teardown s).cs = .listen ∨ (teardown s).cs = .stopped := by
  obtain ⟨-, htear⟩ | ⟨-, htear⟩ := teardown_cases s <;> rw [htear]
  · exact .inr rfl
  · exact .inl rfl

/-- Settles O35: neither reset nor stop takes the step, so it is the control point's, and each leads as the table says. -/
theorem controlPointEdges : Obligations.ControlPointEdges := by
  intro s t h he
  rw [step_eq_pointStep he] at h
  refine ⟨fun hc => ?_, fun hc hq => ?_, fun hc hq => ?_, fun hc hq => ?_, fun hc hq => ?_, fun hc => ?_, fun hc => ?_,
    fun hc => ?_⟩
  · exact listenPoint_edge (s := s.hold) hc (pointStep_listen (s := s.hold) hc ▸ h)
  · exact rxPoint_edge (s := s.hold) hc hq (pointStep_rx (s := s.hold) hc hq ▸ h)
  · exact drainPoint_edge (s := s.hold) hc hq (pointStep_drain (s := s.hold) hc hq ▸ h)
  · exact xfWaitPoint_edge (s := s.hold) hc hq (pointStep_xfWait (s := s.hold) hc hq ▸ h)
  · exact txPoint_edge (s := s.hold) hc hq (pointStep_tx (s := s.hold) hc hq ▸ h)
  · rw [pointStep_closed (s := s.hold) hc] at h
    cases h
    exact teardown_edge s.hold
  · rw [pointStep_stopped (s := s.hold) hc] at h
    cases h
    exact hc
  · rw [pointStep_halted (s := s.hold) hc] at h
    cases h
    exact hc

end Sys2Proof.Machine
end

section
/-! O47. `frames` and `rest` of a stream, by the frame at its head (R146): they do not depend on the fuel, so what spells a list of
frames is taken off the head of a stream frame by frame. -/

namespace Sys2Proof.Machine

variable {par : Params} {bs p r : Bytes} {op : Nat}

/-- With no complete frame at the head there is none in the stream, whatever the fuel. -/
theorem fuel_of_not_frameReady (h : phase par bs ≠ .frameReady) (k : Nat) :
    framesFuel par k bs = [] ∧ restFuel par k bs = bs := by
  cases hh : headFrame par bs with
  | error e => cases k <;> simp [framesFuel, restFuel, hh]
  | ok x => exact (h (phase_frameReady_iff.mpr ⟨_, _, _, hh⟩)).elim

/-- What follows the frame at the head is shorter, since a header has a byte. -/
theorem length_lt_of_headFrame (hf : par.FormatOk) (hh : headFrame par bs = .ok (op, p, r)) : r.length < bs.length := by
  obtain ⟨-, -, -, -, -, hfits, rfl⟩ := headFrame_ok hh
  have hpos := hf.1
  rw [List.length_drop]
  omega

/-- Any fuel that is no less than the stream's length is as good as any other. -/
theorem fuel_irrelevant (hf : par.FormatOk) {k l : Nat} (hk : bs.length ≤ k) (hl : bs.length ≤ l) :
    framesFuel par k bs = framesFuel par l bs ∧ restFuel par k bs = restFuel par l bs := by
  induction k generalizing bs l with
  | zero =>
    obtain rfl := List.length_eq_zero_iff.mp (Nat.le_zero.mp hk)
    simp [fuel_of_not_frameReady (phase_nil_ne_frameReady hf)]
  | succ k ih =>
    by_cases hp : phase par bs = .frameReady
    · obtain ⟨op, p, r, hh⟩ := phase_frameReady_iff.mp hp
      have hlt := length_lt_of_headFrame hf hh
      cases l with
      | zero => omega
      | succ l =>
        obtain ⟨hframes, hrest⟩ := ih (bs := r) (l := l) (by omega) (by omega)
        simp [framesFuel, restFuel, hh, hframes, hrest]
    · simp [fuel_of_not_frameReady hp]

theorem frames_rest_of_not_frameReady (h : phase par bs ≠ .frameReady) : frames par bs = [] ∧ rest par bs = bs :=
  fuel_of_not_frameReady h bs.length

/-- The frame at the head is the first of the stream's, and the others are those of what follows it. -/
theorem frames_rest_of_headFrame (hf : par.FormatOk) (hh : headFrame par bs = .ok (op, p, r)) :
    frames par bs = (op, p) :: frames par r ∧ rest par bs = rest par r := by
  have hlt := length_lt_of_headFrame hf hh
  obtain ⟨k, hk⟩ := Nat.exists_eq_add_one_of_ne_zero (show bs.length ≠ 0 by omega)
  obtain ⟨hframes, hrest⟩ := fuel_irrelevant hf (bs := r) (k := k) (l := r.length) (by omega) le_rfl
  simp [frames, rest, hk, framesFuel, restFuel, hh, hframes, hrest]

/-- What spells a frame has that frame at its head, whatever follows (R80, R89). -/
theorem headFrame_wire_append (hf : par.FormatOk) {f : Nat × Bytes} (hop : f.1 < 2 ^ par.opBits)
    (hlen : f.2.length ≤ par.lenMax) (more : Bytes) : headFrame par (wire par f ++ more) = .ok (f.1, f.2, more) := by
  have hmax := hf.2.2.2
  have henc := encodeHeader_of_lt hop (show f.2.length < 2 ^ par.lenBits by omega)
  have hwire : wire par f = beBytes par.hdrBytes ((f.1 <<< par.lenBits) ||| f.2.length) ++ f.2 := by
    simp [wire, frameOf, henc]
  rw [hwire]
  exact headFrame_beBytes hf henc

/-- A stream that begins with what spells some frames has these first, and the others are those of what follows: by induction on
the frames. -/
theorem frames_rest_flatMap_wire (hf : par.FormatOk) {fs : List (Nat × Bytes)}
    (hfs : ∀ f ∈ fs, f.1 < 2 ^ par.opBits ∧ f.2.length ≤ par.lenMax) (more : Bytes) :
    frames par (fs.flatMap (wire par) ++ more) = fs ++ frames par more ∧
      rest par (fs.flatMap (wire par) ++ more) = rest par more := by
  induction fs with
  | nil => exact ⟨rfl, rfl⟩
  | cons f fs ih =>
    obtain ⟨hop, hlen⟩ := hfs f (by simp)
    obtain ⟨ihframes, ihrest⟩ := ih fun g hg => hfs g (by simp [hg])
    obtain ⟨hframes, hrest⟩ := frames_rest_of_headFrame hf
      (headFrame_wire_append hf hop hlen (fs.flatMap (wire par) ++ more))
    rw [List.flatMap_cons, List.append_assoc, hframes, hrest, ihframes, ihrest]
    exact ⟨rfl, rfl⟩

/-- While CONN, the stream's frames are those extracted and then those still in `buf` (R146). -/
theorem FramingLaw.frames_rest {s : State} (h : FramingLaw s) (hc : s.cs = .conn) :
    frames s.par (received s.hist) = extracted s.hist ++ frames s.par s.buf ∧
      rest s.par (received s.hist) = rest s.par s.buf := by
  obtain ⟨hf, hconn⟩ := h
  obtain ⟨hspelled, hstream⟩ := hconn hc
  rw [hstream]
  exact frames_rest_flatMap_wire hf hspelled s.buf

/-- At (CONN, RX) no complete frame is left in `buf`, so the frames extracted are all of the stream's (R41, R146). -/
theorem FramingLaw.extracted_buf {s : State} (h : FramingLaw s) (hi : s.Inv) (hc : s.cs = .conn) (hq : s.seq = .rx) :
    extracted s.hist = frames s.par (received s.hist) ∧ s.buf = rest s.par (received s.hist) := by
  obtain ⟨hframes, hrest⟩ := h.frames_rest hc
  obtain ⟨hnone, hall⟩ := frames_rest_of_not_frameReady (hi.drained hc hq)
  rw [hframes, hrest, hnone, hall, List.append_nil]
  exact ⟨rfl, rfl⟩

/-- Settles O47: in RX the frames extracted and `buf` are functions of the parameters and the stream received alone. -/
theorem chunkingIndependence : Obligations.ChunkingIndependence := by
  refine ⟨fun s h hc => h.frames_rest hc, fun s h hi hc hq => h.extracted_buf hi hc hq,
    fun s t hs ht his hit hcs hct hqs hqt hpar hrec => ?_⟩
  obtain ⟨hxs, hbs⟩ := hs.extracted_buf his hcs hqs
  obtain ⟨hxt, hbt⟩ := ht.extracted_buf hit hct hqt
  rw [hxs, hbs, hxt, hbt, hpar, hrec]
  exact ⟨rfl, rfl⟩

end Sys2Proof.Machine
end

section
/-! O52. The two steps from a supported frame to its staged response; the consumer then takes the response byte by byte (O53). -/

namespace Sys2Proof.Machine

variable {s : State} {op : Nat} {p r : Bytes} {more : List Pins}

/-- A transform unit that is ready, in a record with nothing else in it, takes the request of the frame at the head (R162). -/
theorem step_of_request_taken (hc : s.cs = .conn) (hq : s.seq = .drain) (hh : headFrame s.par s.buf = .ok (op, p, r))
    (hi : op ∈ s.par.validOps) (he : s.env = { xqReady := true } :: more) :
    step s = .next { dispatchXf (latchFrame op p s) with env := more } := by
  have hpins : s.pins = { xqReady := true } := by simp [State.pins, he]
  have hnext : nextEnv s = more := by simp [nextEnv, untaken, hpins, he]
  rw [step_of_headFrame (pointEnabled_of_quiet (by simp [hpins]) (by simp [hpins])) hc hq hh,
    extract_of_request_taken (s := s.hold) (classify_eq_supported.mpr hi) (by simp [hpins]), ← hnext]
  rfl

/-- A result within RLEN_MAX is framed and staged (R163). -/
theorem xfDone_of_fits (hr : r.length ≤ s.par.rlenMax) :
    xfDone r s = { s with txq := frame s.par r, curPay := [], seq := .tx }.emit (.xrspOk r) :=
  if_neg (not_lt.mpr hr)

/-- A result within RLEN_MAX, in a record with nothing else in it, is taken and framed (R163). -/
theorem step_of_result (hc : s.cs = .conn) (hq : s.seq = .xfWait) (hr : r.length ≤ s.par.rlenMax)
    (he : s.env = { xr := some (.ok r) } :: more) :
    step s = .next { s with
      txq := frame s.par r, curPay := [], seq := .tx, hist := .xrspOk r :: s.hist, env := more } := by
  have hpins : s.pins = { xr := some (.ok r) } := by simp [State.pins, he]
  have hen : pointEnabled s = true := pointEnabled_of_quiet (by simp [hpins]) (by simp [hpins])
  have hnext : nextEnv s = more := by simp [nextEnv, untaken, hpins, he, hen]
  have hpoint : xfWaitPoint s.hold = .next (xfDone r s.hold).tick := by simp [xfWaitPoint, hpins]
  rw [step_eq_pointStep hen, pointStep_xfWait (s := s.hold) hc hq, hpoint, xfDone_of_fits (s := s.hold) hr,
    ← hnext]
  rfl

/-- With no offer waiting, a consumer that accepts every byte gets the whole response and the records to come stay (R164). -/
theorem run_of_response_alone (q : Bytes) (hc : s.cs = .conn) (hq : s.seq = .tx) (ht : s.txq = q) (hne : q ≠ [])
    (he : s.env = List.replicate q.length { tx := .accept } ++ more) :
    Host.Core.run Sys2Proof.core q.length s = .next { s with
      txq := [], seq := .drain, env := more, hist := (q.map .txByte).reverse ++ s.hist } := by
  have hnone : ∀ ps, waiting {} ps = ps := waiting_none rfl rfl rfl
  have hrun := run_of_response_accepted (w := {}) (more := more) q hc hq ht hne rfl (he.trans (hnone _).symm)
  rwa [hnone] at hrun

/-- From XF_WAIT, with that result next and then a consumer that accepts every byte, the framed result is written in full
(R163, R164). -/
theorem run_of_result_accepted (hf : s.par.FormatOk) (hc : s.cs = .conn) (hq : s.seq = .xfWait)
    (hr : r.length ≤ s.par.rlenMax)
    (he : s.env = { xr := some (.ok r) } :: (List.replicate (frame s.par r).length { tx := .accept } ++ more)) :
    Host.Core.run Sys2Proof.core ((frame s.par r).length + 1) s = .next { s with
      txq := [], curPay := [], seq := .drain, env := more
      hist := ((frame s.par r).map .txByte).reverse ++ .xrspOk r :: s.hist } :=
  (run_succ (step_of_result hc hq hr he) _).trans
    (run_of_response_alone (frame s.par r)
      (s := { s with txq := frame s.par r, curPay := [], seq := .tx, hist := .xrspOk r :: s.hist, env := _ })
      hc rfl rfl (frame_ne_nil hf r) rfl)

/-- Settles O52: the request is taken, and the result that answers it is written in full. -/
theorem supportedFrameEndToEnd : Obligations.SupportedFrameEndToEnd := by
  intro s op p rem r more hf hc hq hh hi hr he
  obtain ⟨-, -, -, -, -, -, hrem⟩ := headFrame_ok hh
  rw [← frame_length s.par r] at he ⊢
  have hrequest := step_of_request_taken hc hq hh hi he
  refine ⟨_, (run_succ hrequest _).trans (run_of_result_accepted hf hc rfl hr rfl), hc, rfl, hrem.symm, rfl, rfl, rfl,
    ?_, ?_⟩
  · simp [egress_txBytes, egress]
  · simp [requested_txBytes, requested]

end Sys2Proof.Machine
end

section
/-! O48. What a step does to the responses staged, the bytes written and the bytes still to write of a connection, said once: it
opens the connection with all three empty, stages a framed response, moves the head of `txq` to the bytes written, or leaves them. -/

namespace Sys2Proof.Machine

variable {s t : State}

/-- The ways a step can change a connection's account of response bytes (R160, R161, R163, R164). -/
inductive EgressMove (s t : State) : Prop where
  | opened (hw : egress t.hist = []) (hrsp : responses s.par t.hist = []) (ht : t.txq = [])
  | kept (hw : egress t.hist = egress s.hist) (hrsp : responses s.par t.hist = responses s.par s.hist)
      (hconn : t.cs = .conn → s.cs = .conn ∧ t.txq = s.txq)
  | staged (hc : s.cs = .conn) (hq : s.seq ≠ .tx) (r : Bytes) (hw : egress t.hist = egress s.hist)
      (hrsp : responses s.par t.hist = responses s.par s.hist ++ [r]) (ht : t.txq = frame s.par r)
  | written (hc : s.cs = .conn) (b : Byte) (r : Bytes) (hs : s.txq = b :: r) (hw : egress t.hist = egress s.hist ++ [b])
      (hrsp : responses s.par t.hist = responses s.par s.hist) (ht : t.txq = r)

/-- A step that ends in no connection, having staged and written nothing, leaves the account. -/
theorem EgressMove.of_not_conn (hw : egress t.hist = egress s.hist)
    (hrsp : responses s.par t.hist = responses s.par s.hist) (hc : t.cs ≠ .conn) : EgressMove s t :=
  .kept hw hrsp fun h => (hc h).elim

/-- Every row of the step table is one of these (R174). -/
theorem Move.egressMove (m : Move s t) : EgressMove s t := by
  cases m with
  | reset | fin | rerr | fail | txErr => exact .of_not_conn rfl rfl nofun
  | wait => exact .kept rfl rfl fun hc => ⟨hc, rfl⟩
  | accept => exact .opened rfl rfl rfl
  | drained hc => exact .kept rfl rfl fun _ => ⟨hc, rfl⟩
  | write hc _ b r ht => exact .written hc b r ht rfl rfl rfl
  | stop =>
    obtain ⟨-, he⟩ | ⟨-, -, he⟩ := takeStop_cases s <;> rw [he]
    · exact .of_not_conn rfl rfl nofun
    · exact .kept rfl rfl fun hc => ⟨hc, rfl⟩
  | feed hc _ d =>
    obtain ⟨-, he⟩ | ⟨-, he⟩ := feed_cases d s <;> rw [he]
    · exact .of_not_conn rfl rfl nofun
    · exact .kept rfl rfl fun _ => ⟨hc, rfl⟩
  | unsup hc hq op p _ _ hi => exact .staged hc (by simp [hq]) s.par.errorText rfl (by simp [responses, hi]) rfl
  | request hc _ op p _ _ hi => exact .kept rfl (by simp [responses, hi]) fun _ => ⟨hc, rfl⟩
  | done hc hq r =>
    obtain ⟨-, he⟩ | ⟨-, he⟩ := xfDone_cases r s <;> rw [he]
    · exact .of_not_conn rfl rfl nofun
    · exact .staged hc (by simp [hq]) r rfl rfl rfl
  | teardown =>
    obtain ⟨-, he⟩ | ⟨-, he⟩ := teardown_cases s <;> rw [he] <;> exact .of_not_conn rfl rfl nofun

@[simp] theorem framed_concat (par : Params) (rs : List Bytes) (r : Bytes) :
    framed par (rs ++ [r]) = framed par rs ++ frame par r := by
  simp [framed]

/-- While CONN the law is what is written and what is still to write; that it is an initial part follows (R173). -/
theorem EgressLaw.of_eq (h : egress s.hist ++ s.txq = framed s.par (responses s.par s.hist)) : EgressLaw s :=
  ⟨⟨_, h⟩, fun _ => h⟩

/-- Every row keeps the law of R173: a response is staged only when all earlier ones are written (R36). -/
theorem Move.egressLaw (m : Move s t) (hinv : s.Inv) (hlaw : EgressLaw s) : EgressLaw t := by
  obtain ⟨hinitial, hconn⟩ := hlaw
  have hpar := m.par_env.1
  cases m.egressMove with
  | opened hw hrsp ht => exact .of_eq (by simp [hpar, hw, hrsp, ht, framed])
  | kept hw hrsp hc =>
    unfold EgressLaw
    rw [hpar, hw, hrsp]
    refine ⟨hinitial, fun htc => ?_⟩
    obtain ⟨hsc, htxq⟩ := hc htc
    rw [htxq, hconn hsc]
  | staged hc hq r hw hrsp ht =>
    have hdone := hconn hc
    rw [hinv.txq_eq_nil hc hq, List.append_nil] at hdone
    exact .of_eq (by rw [hpar, hw, hrsp, ht, framed_concat, hdone])
  | written hc b r hs hw hrsp ht =>
    have hleft := hconn hc
    rw [hs] at hleft
    exact .of_eq (by rw [hpar, hw, hrsp, ht, List.append_assoc, List.singleton_append, hleft])

/-- Settles O48: every row keeps the law, and in DRAIN nothing is staged (R36). -/
theorem egressIsTheFramedResponses : Obligations.EgressIsTheFramedResponses := by
  refine ⟨.of_eq rfl, fun s t hinv hlaw h => (step_move h).egressLaw hinv.hold hlaw, fun s hinv hlaw hc hq => ?_⟩
  have hdone := hlaw.2 hc
  rwa [hinv.txq_eq_nil hc (by simp [hq]), List.append_nil] at hdone

end Sys2Proof.Machine
end

section
/-! O25. A framed response, as a length read back and the bytes behind it (R170). -/

namespace Sys2Proof.Machine

variable {par : Params} {r : Bytes}

/-- The length at the head of a framed response within RLEN_MAX is the exact byte count (R84, R170). -/
theorem headAt_frame (hf : par.FormatOk) (hfit : par.ResponsesFit) (hr : r.length ≤ par.rlenMax) :
    headAt par (frame par r) = some r.length := by
  obtain ⟨-, -, hrlen, -⟩ := hf
  have hlt : r.length < 2 ^ par.rlenBits := hr.trans_lt hfit.1
  have hbytes : r.length < 256 ^ par.hdrBytes := by rwa [hrlen, Nat.pow_mul] at hlt
  rw [frame, Nat.mod_eq_of_lt hlt]
  exact headAt_beBytes hbytes r

/-- Behind the length stand the response's bytes (R170). -/
theorem drop_frame (par : Params) (r : Bytes) : (frame par r).drop par.hdrBytes = r :=
  List.drop_left' (beBytes_length _ _)

/-- Settles O25: by default the length is the four digits of the count to the base 256. -/
theorem frameIsLengthThenBytes : Obligations.FrameIsLengthThenBytes := by
  refine ⟨fun r hr => ?_, fun par r hf hfit hr => ⟨headAt_frame hf hfit hr, drop_frame par r, frame_length par r⟩⟩
  have hmod : r.length % 2 ^ ({} : Params).rlenBits = r.length := Nat.mod_eq_of_lt (Nat.lt_succ_of_le hr)
  rw [frame, hmod]
  simp [beBytes, Config.hdrBytesDefault]

end Sys2Proof.Machine
end

section
/-! O51. A response written alone (O52), with what it adds to the egress bytes (O53). -/

namespace Sys2Proof.Machine

/-- Settles O51: the run writes the bytes staged, each recorded as sent. -/
theorem responseIsWrittenInFull : Obligations.ResponseIsWrittenInFull :=
  fun s _ hc hq hne he =>
    ⟨_, run_of_response_alone s.txq hc hq rfl hne he, hc, rfl, rfl, rfl, rfl, egress_txBytes s.txq s.hist⟩

end Sys2Proof.Machine
end

section
/-! O12. An unsupported frame, by the extraction that every opcode shares (R116, R161). -/

namespace Sys2Proof.Machine

/-- The frame `x.1` has the opcode `x.2`, which the default table does not hold, and the payload `p` (R116). -/
def UnsupportedRow (p : Bytes) (x : Instr × Nat) : Prop :=
  x.1.op = x.2 ∧ x.1.payload = p ∧ x.2 ∉ ({} : Params).validOps

/-- Settles O12: an unsupported opcode's meaning is the extraction with the error response, and the constructors listed are
checked one by one against the default table. -/
theorem unsupportedFrameStagesError : Obligations.UnsupportedFrameStagesError := by
  refine ⟨fun i s hi => ?_, frame_errorText, fun p i op hmem => ?_⟩
  · rw [exec_eq_extract, extract_of_unsupported (classify_eq_unsupported.mpr hi)]
    rfl
  · refine List.forall_iff_forall_mem (p := UnsupportedRow p).mp ?_ (i, op) hmem
    simp [UnsupportedRow, Instr.op, Instr.payload, Config.validOpsDefault]

end Sys2Proof.Machine
end

section
/-! O16 and O19 to O24. The connection's steps by control point, each from its own input; an input at another point is not
read (O38). -/

namespace Sys2Proof.Machine

variable {s : State} {p : Pins} {more : List Pins}

/-! FR is not ready, or offers nothing, at the other points (R7 to R9). -/

theorem rxReady_eq_false_iff : rxReady s = false ↔ ¬ (s.cs = .conn ∧ s.seq = .rx) := by
  rw [Bool.eq_false_iff, ne_eq, rxReady_iff]

theorem xrReady_eq_false_iff : xrReady s = false ↔ ¬ (s.cs = .conn ∧ s.seq = .xfWait) := by
  rw [Bool.eq_false_iff, ne_eq, xrReady_iff]

theorem txOffer_eq_none_of_not_tx (h : ¬ (s.cs = .conn ∧ s.seq = .tx)) : txOffer s = none := if_neg h

/-- Outside XF_WAIT an answer does nothing to FR (R9). -/
theorem blind_step_of_not_xfWait (he : s.env = p :: more) (h : ¬ (s.cs = .conn ∧ s.seq = .xfWait)) :
    blind (step s) = blind (step { s with env := { p with xr := none } :: more }) := by
  obtain ⟨-, -, hxr, -, -⟩ := unreadyChannelsAreNotRead s p more he
  exact hxr (xrReady_eq_false_iff.mpr h) none

/-- Outside TX the consumer's reaction leaves the step what it is when the consumer delays (R8). -/
theorem step_of_not_tx (he : s.env = p :: more) (h : ¬ (s.cs = .conn ∧ s.seq = .tx)) :
    step s = step { s with env := { p with tx := .hold } :: more } := by
  obtain ⟨-, -, -, htx, -⟩ := unreadyChannelsAreNotRead s p more he
  exact htx (txOffer_eq_none_of_not_tx h) .hold

/-! ACCEPT and TEARDOWN. -/

/-- Settles O16: in LISTEN the accept is taken, elsewhere its channel is not read. -/
theorem acceptOpensAConnection : Obligations.AcceptOpensAConnection := by
  refine ⟨fun s he hc hacc => ?_, fun s p more henv hc => ?_⟩
  · have hpoint : listenPoint s.hold = .next (takeAccept s.hold).tick := if_pos hacc
    rw [step_eq_pointStep he, pointStep_listen (s := s.hold) hc, hpoint]
    rfl
  · have hready : accReady s = false := by rwa [Bool.eq_false_iff, ne_eq, accReady_iff]
    obtain ⟨hacc, -⟩ := unreadyChannelsAreNotRead s p more henv
    exact hacc hready false

/-- Settles O24: both cases of the teardown. -/
theorem teardownReturnsToListen : Obligations.TeardownReturnsToListen := by
  intro s he hc
  rw [step_eq_pointStep he, pointStep_closed (s := s.hold) hc, teardown, apply_ite State.tick]
  rfl

/-! XF_DONE and XF_FAIL. -/

/-- In XF_WAIT a result is taken (R163). -/
theorem xfWaitPoint_of_ok {r : Bytes} (h : s.pins.xr = some (.ok r)) : xfWaitPoint s = .next (xfDone r s).tick := by
  simp [xfWaitPoint, h]

/-- In XF_WAIT a failure is taken (R165). -/
theorem xfWaitPoint_of_fail (h : s.pins.xr = some .fail) : xfWaitPoint s = .next (xfFail s).tick := by
  simp [xfWaitPoint, h]

/-- Settles O19: the fault and the staging are the two cases of XF_DONE. -/
theorem transformResultIsFramed : Obligations.TransformResultIsFramed := by
  refine ⟨fun s r he hc hq hr => ?_, fun s p more henv hno => blind_step_of_not_xfWait henv hno⟩
  rw [step_eq_pointStep he, pointStep_xfWait (s := s.hold) hc hq, xfWaitPoint_of_ok (s := s.hold) hr, xfDone,
    apply_ite State.tick]
  rfl

/-- Settles O20: a failure closes, and outside XF_WAIT it is not read. -/
theorem transformFailureCloses : Obligations.TransformFailureCloses := by
  refine ⟨fun s he hc hq hf => ?_, fun s p more henv hno _ => blind_step_of_not_xfWait henv hno⟩
  rw [step_eq_pointStep he, pointStep_xfWait (s := s.hold) hc hq, xfWaitPoint_of_fail (s := s.hold) hf]
  rfl

/-! WRITE and TX_ERR. -/

/-- In TX a write error is taken while a byte is offered (R169). -/
theorem txPoint_of_err (ht : s.txq ≠ []) (hp : s.pins.tx = .err) : txPoint s = .next (txErr s).tick := by
  obtain ⟨b, r, hbr⟩ := List.exists_cons_of_ne_nil ht
  simp [txPoint, hbr, hp]

/-- Settles O21: the byte at the head is written in TX only, and a byte recorded as sent was accepted (O37). -/
theorem writeMovesOneByte : Obligations.WriteMovesOneByte := by
  refine ⟨fun s b r he hc hq ht hp => ?_, fun s p more henv hno _ => step_of_not_tx henv hno, fun s t h hp => ?_⟩
  · rw [step_eq_pointStep he, pointStep_tx (s := s.hold) hc hq, txPoint_of_accept (s := s.hold) ht hp, writeByte]
    simp only [List.isEmpty_iff]
    rfl
  · obtain ⟨new, hhist, -, -, -, -, -, -, -, hbyte, -⟩ := transfersAreHandshakes s t h
    exact ⟨new, hhist, fun b hb => hp ((hbyte b).mp hb).2.2⟩

/-- Settles O22: a write error closes, and outside TX it is not read. -/
theorem writeErrorCloses : Obligations.WriteErrorCloses := by
  refine ⟨fun s he hc hq ht hp => ?_, fun s p more henv hno => step_of_not_tx henv hno⟩
  rw [step_eq_pointStep he, pointStep_tx (s := s.hold) hc hq, txPoint_of_err (s := s.hold) ht hp]
  rfl

/-! PEER_FIN and PEER_ERR. -/

/-- In RX the end of the stream is taken (R166). -/
theorem rxPoint_of_fin (h : s.pins.rx = some .fin) : rxPoint s = .next (peerFin s).tick := by
  simp [rxPoint, h]

/-- In RX a read error is taken (R167). -/
theorem rxPoint_of_rerr (h : s.pins.rx = some .rerr) : rxPoint s = .next (peerErr s).tick := by
  simp [rxPoint, h]

/-- Settles O23: both close in RX, and outside RX the ingress channel is not read. -/
theorem peerCloseCloses : Obligations.PeerCloseCloses := by
  refine ⟨fun s he hc hq hr => ?_, fun s he hc hq hr => ?_, fun s p more henv hno => ?_⟩
  · rw [step_eq_pointStep he, pointStep_rx (s := s.hold) hc hq, rxPoint_of_fin (s := s.hold) hr]
    rfl
  · rw [step_eq_pointStep he, pointStep_rx (s := s.hold) hc hq, rxPoint_of_rerr (s := s.hold) hr]
    rfl
  · obtain ⟨-, hrx, -⟩ := unreadyChannelsAreNotRead s p more henv
    exact hrx (rxReady_eq_false_iff.mpr hno) none

end Sys2Proof.Machine
end

section
/-! The step by what takes it: reset, the stop, or the control point, which may wait or raise a fault (R191 to R196, R202). With it
O28 to O32. -/

namespace Sys2Proof.Machine

variable {s t : State}

/-! Reset over stop over the control point (R196). -/

theorem step_of_rst (hr : s.pins.rst = true) : step s = .next (takeReset s.hold).tick := by
  rw [step_eq, if_pos hr]

theorem stopTaken_iff :
    stopTaken s = true ↔ s.pins.rst = false ∧ s.pins.stop = true ∧ s.stopReq = false ∧
      (s.cs = .listen ∨ s.cs = .conn ∨ s.cs = .closed) := by
  simp only [stopTaken, Bool.and_eq_true, Bool.not_eq_true', stopOpen_iff, and_assoc]

theorem step_of_stopTaken (hs : stopTaken s = true) : step s = .next (takeStop s.hold).tick := by
  obtain ⟨hr, -⟩ := stopTaken_spec hs
  rw [step_eq, if_neg (by simp [hr]), if_pos hs]

/-- A step is a reset, a stop taken, or the control point's. -/
theorem rst_or_stopTaken_or_pointEnabled (s : State) :
    s.pins.rst = true ∨ stopTaken s = true ∨ pointEnabled s = true := by
  cases hr : s.pins.rst <;> cases hs : stopTaken s <;> simp [pointEnabled, hr, hs]

/-- No stop is open once one was taken, nor in STOPPED or HALTED (R194). -/
theorem stopOpen_eq_false (h : s.stopReq = true ∨ s.cs = .stopped ∨ s.cs = .halted) : stopOpen s = false := by
  rw [Bool.eq_false_iff, ne_eq, stopOpen_iff]
  rintro ⟨hr, hc⟩
  obtain h | h | h := h <;> simp [h] at hr hc

/-! When a stop is taken, and when it is ignored (R194). -/

/-- The stop action sets `stop_req` under either policy (R194, R195). -/
@[simp] theorem takeStop_stopReq (s : State) : (takeStop s).stopReq = true := by
  obtain ⟨-, he⟩ | ⟨-, -, he⟩ := takeStop_cases s <;> simp [he]

/-- No control point writes `stop_req`. -/
theorem step_stopReq_of_pointEnabled (he : pointEnabled s = true) (h : step s = .next t) : t.stopReq = s.stopReq := by
  obtain ⟨hrst, hstop⟩ := pointEnabled_spec he
  cases step_move h with
  | reset hr => simp [hrst] at hr
  | stop hs => simp [hstop] at hs
  | feed _ _ d => obtain ⟨-, he⟩ | ⟨-, he⟩ := feed_cases d s.hold <;> simp [he]
  | done _ _ r => obtain ⟨-, he⟩ | ⟨-, he⟩ := xfDone_cases r s.hold <;> simp [he]
  | teardown => obtain ⟨-, he⟩ | ⟨-, he⟩ := teardown_cases s.hold <;> simp [he]
  | _ => rfl

/-- No control point reads `stop`. -/
theorem pointStep_on_stop (s : State) (p : Pins) (b : Bool) (ps : List Pins) :
    pointStep (s.on { p with stop := b } ps) = pointStep (s.on p ps) := by
  simp only [pointStep, rxPoint, drainPoint_eq, xfWaitPoint, feed, xfDone, teardown, apply_ite State.tick]
  rfl

/-- Where no stop is open the step is the same whether `stop` is asserted or not. -/
theorem step_on_stop (hopen : stopOpen s = false) (p : Pins) (b : Bool) (ps : List Pins) :
    step (s.on { p with stop := b } ps) = step (s.on p ps) := by
  have hstop : ∀ q, stopTaken (s.on q ps) = false := fun q => by
    change (!q.rst && q.stop && stopOpen s) = false
    rw [hopen, Bool.and_false]
  have hnext : nextEnv (s.on { p with stop := b } ps) = nextEnv (s.on p ps) := by
    simp only [nextEnv, untaken, accOpen, rxOpen, pointEnabled, hstop]
    rfl
  have hhold : (s.on { p with stop := b } ps).hold = s.on { p with stop := b } (nextEnv (s.on p ps)) := by
    rw [← hnext]
    rfl
  rw [step_eq, step_eq, hstop, hstop, hhold, pointStep_on_stop]
  rfl

/-- Settles O29: the stop action sets `stop_req`, no control point does, and none reads the input. -/
theorem stopIsTakenOnce : Obligations.StopIsTakenOnce := by
  refine ⟨fun s t h hrst => ?_, fun s p more henv hno => ?_⟩
  · obtain hr | hs | he := rst_or_stopTaken_or_pointEnabled s
    · simp [hrst] at hr
    · obtain ⟨-, hstop, -, hc⟩ := stopTaken_spec hs
      obtain rfl := Host.Outcome.next.inj ((step_of_stopTaken hs).symm.trans h)
      simp [hstop, hc]
    · obtain ⟨-, hnot⟩ := pointEnabled_spec he
      rw [step_stopReq_of_pointEnabled he h]
      refine ⟨.inl, ?_⟩
      rintro (hreq | ⟨hstop, hc⟩)
      · exact hreq
      · by_contra hreq
        exact Bool.eq_false_iff.mp hnot (stopTaken_iff.mpr ⟨hrst, hstop, Bool.eq_false_iff.mpr hreq, hc⟩)
  · have hs : s = s.on p more := by rw [State.on, ← henv]
    rw [hs]
    exact (step_on_stop (stopOpen_eq_false hno) p false more).symm

/-! Fault entry (R191, R192). -/

/-- The stop action never enters HALTED (R195). -/
theorem takeStop_cs_ne_halted (hne : s.cs ≠ .halted) : (takeStop s).cs ≠ .halted := by
  obtain ⟨-, he⟩ | ⟨-, -, he⟩ := takeStop_cases s <;> simp [he, hne]

/-- A row that enters HALTED raises one of the two faults, and does nothing else. -/
theorem Move.halted_cases (m : Move s t) (hne : s.cs ≠ .halted) (ht : t.cs = .halted) :
    (∃ d, rxReady s = true ∧ s.pins.rx = some (.chunk d) ∧ s.par.bufCap < s.buf.length + d.length ∧
      t = (raiseFault .bufOverflow s).tick) ∨
    ∃ r, xrReady s = true ∧ s.pins.xr = some (.ok r) ∧ s.par.rlenMax < r.length ∧
      t = (raiseFault .rspTooLong s).tick := by
  cases m with
  | feed hc hq d hd =>
    obtain ⟨hover, he⟩ | ⟨-, he⟩ := feed_cases d s
    · exact .inl ⟨d, rxReady_iff.mpr ⟨hc, hq⟩, hd, hover, by rw [he]⟩
    · exact (hne (by simpa [he] using ht)).elim
  | done hc hq r hr =>
    obtain ⟨hlong, he⟩ | ⟨-, he⟩ := xfDone_cases r s
    · exact .inr ⟨r, xrReady_iff.mpr ⟨hc, hq⟩, hr, hlong, by rw [he]⟩
    · exact (hne (by simpa [he] using ht)).elim
  | stop => exact (takeStop_cs_ne_halted hne ht).elim
  | teardown => obtain hcs | hcs := teardown_edge s <;> simp [hcs] at ht
  | wait | drained | unsup | request | write => exact (hne ht).elim
  | _ => cases ht

/-- A fault is raised by the control point's step (R191, R196). -/
theorem pointEnabled_of_halted (hne : s.cs ≠ .halted) (h : step s = .next t) (ht : t.cs = .halted) :
    pointEnabled s = true := by
  obtain hr | hs | he := rst_or_stopTaken_or_pointEnabled s
  · obtain rfl := Host.Outcome.next.inj ((step_of_rst hr).symm.trans h)
    cases ht
  · obtain rfl := Host.Outcome.next.inj ((step_of_stopTaken hs).symm.trans h)
    exact (takeStop_cs_ne_halted (s := s.hold) hne ht).elim
  · exact he

/-- A chunk beyond the capacity enters HALTED, when the model does not refuse it for its size (R141; log entry 8). -/
theorem halted_of_overflow (he : pointEnabled s = true) (h : step s = .next t) (hready : rxReady s = true) {d : Bytes}
    (hd : s.pins.rx = some (.chunk d)) (hover : s.par.bufCap < s.buf.length + d.length) : t.cs = .halted := by
  by_cases hsize : 1 ≤ d.length ∧ d.length ≤ s.par.chunkMax
  · obtain ⟨hc, hq⟩ := rxReady_iff.mp hready
    rw [feedAppendsOrFaults.1 s d he hc hq hd hsize.1 hsize.2, if_pos hover] at h
    cases h
    rfl
  · have href := (nonconformingChunkIsRefused s d he hd (by omega)).mpr hready
    rw [href] at h
    cases h

/-- A result beyond RLEN_MAX enters HALTED (R163). -/
theorem halted_of_too_long (he : pointEnabled s = true) (h : step s = .next t) (hready : xrReady s = true) {r : Bytes}
    (hr : s.pins.xr = some (.ok r)) (hlong : s.par.rlenMax < r.length) : t.cs = .halted := by
  obtain ⟨hc, hq⟩ := xrReady_iff.mp hready
  rw [transformResultIsFramed.1 s r he hc hq hr, if_pos hlong] at h
  cases h
  rfl

/-- Settles O32: the rows that raise a fault are FEED and XF_DONE, and HALTED is on no channel. -/
theorem faultEntryIsPrecise : Obligations.FaultEntryIsPrecise := by
  intro s t h hne
  have hcause := (step_move h).halted_cases hne
  refine ⟨⟨fun ht => ⟨pointEnabled_of_halted hne h ht, ?_⟩, ?_⟩, fun ht => ⟨?_, ?_⟩⟩
  · obtain ⟨d, hready, hd, hover, -⟩ | ⟨r, hready, hr, hlong, -⟩ := hcause ht
    · exact .inl ⟨d, hready, hd, hover⟩
    · exact .inr ⟨r, hready, hr, hlong⟩
  · rintro ⟨he, ⟨d, hready, hd, hover⟩ | ⟨r, hready, hr, hlong⟩⟩
    · exact halted_of_overflow he h hready hd hover
    · exact halted_of_too_long he h hready hr hlong
  · obtain ⟨-, hready, -, -, rfl⟩ | ⟨-, hready, -, -, rfl⟩ := hcause ht
    · exact .inl ⟨rfl, hready⟩
    · exact .inr ⟨rfl, hready⟩
  · obtain ⟨hacc, hrx, hxq, hxr, htx⟩ := channels_other (s := t) (by simp [ht]) (by simp [ht])
    exact ⟨hacc, hrx, hxr, htx, hxq⟩

/-! Waits (R193, R195, R202). -/

/-- A step in which the control point waits changes nothing but the inputs to come. -/
theorem step_of_pointStep_wait (he : pointEnabled s = true) (hw : pointStep s.hold = .next s.hold.tick) :
    step s = .next { s with env := nextEnv s } := (step_eq_pointStep he).trans hw

/-- In STOPPED and HALTED the control point waits. -/
theorem pointStep_of_resting (hc : s.cs = .stopped ∨ s.cs = .halted) : pointStep s = .next s.tick :=
  hc.elim pointStep_stopped pointStep_halted

/-- In STOPPED and HALTED a step without `rst` is a wait, `stop` or not (R193 to R195). -/
theorem step_of_resting (hc : s.cs = .stopped ∨ s.cs = .halted) (hr : s.pins.rst = false) :
    step s = .next { s with env := nextEnv s } :=
  step_of_pointStep_wait (by simp [pointEnabled, stopTaken, hr, stopOpen_eq_false (.inr hc)])
    (pointStep_of_resting (s := s.hold) hc)

/-- A wait leaves all of FR and records nothing. -/
theorem sameFr_of_wait (hw : step s = .next { s with env := nextEnv s }) (h : step s = .next t) :
    SameFr s t ∧ t.hist = s.hist := by
  obtain rfl := Host.Outcome.next.inj (hw.symm.trans h)
  exact ⟨⟨rfl, rfl, rfl, rfl, rfl, rfl, rfl, rfl, rfl, rfl⟩, rfl⟩

/-- Settles O28: both cases of the stop action, and STOPPED waits. -/
theorem stopActsByPolicy : Obligations.StopActsByPolicy := by
  refine ⟨fun s hr hstop hreq hc => ?_, fun s t hc hr h => sameFr_of_wait (step_of_resting (.inl hc) hr) h⟩
  rw [step_of_stopTaken (stopTaken_iff.mpr ⟨hr, hstop, hreq, hc⟩), takeStop, apply_ite State.tick]
  rfl

/-- Settles O30: HALTED waits for reset, which is taken in every state. -/
theorem haltedOnlyReset : Obligations.HaltedOnlyReset :=
  fun _ hc => ⟨fun hr _ h => sameFr_of_wait (step_of_resting (.inr hc) hr) h, fun hr => ⟨_, step_of_rst hr, rfl, rfl⟩⟩

/-- Settles O31: each control point waits for its own channel. -/
theorem waitsKeepTheState : Obligations.WaitsKeepTheState := by
  intro s he hw
  refine step_of_pointStep_wait he ?_
  obtain ⟨hc, ha⟩ | ⟨hc, hq, hx⟩ | ⟨-, -, ⟨x, hx⟩, hr⟩ | ⟨hc, hq, hx⟩ | ⟨hc, hq, ht, hp⟩ | hc := hw
  · rw [pointStep_listen (s := s.hold) hc]
    simp [listenPoint, ha]
  · rw [pointStep_rx (s := s.hold) hc hq]
    simp [rxPoint, hx]
  · exact pointStep_of_request_held (s := s.hold) hx hr
  · rw [pointStep_xfWait (s := s.hold) hc hq]
    simp [xfWaitPoint, hx]
  · obtain ⟨b, r, hbr⟩ := List.exists_cons_of_ne_nil ht
    exact pointStep_of_byte_held (s := s.hold) (txOffer_eq_some.mpr ⟨hc, hq, r, hbr⟩) hp
  · exact pointStep_of_resting (s := s.hold) hc

end Sys2Proof.Machine
end

section
/-! O27. Reset over everything else, and the only way out of HALTED and STOPPED (R220). -/

namespace Sys2Proof.Machine

/-- Settles O27: reset is taken in every state and writes the reset values; without it HALTED and STOPPED wait. -/
theorem resetStepWritesResetValues : Obligations.ResetStepWritesResetValues := by
  refine ⟨fun s hr => step_of_rst hr, fun s t hc hr h => ?_⟩
  obtain rfl := Host.Outcome.next.inj ((step_of_resting hc.symm hr).symm.trans h)
  rfl

end Sys2Proof.Machine
end

section
/-! O26, O41. The reset state: its values (R30 to R38, R220) and the invariant of the fields, for every set of parameters that R12
allows. -/

namespace Sys2Proof.Machine

/-- Settles O26: the reset state is written out field by field, and LISTEN and F_NONE are shown as 0. -/
theorem resetState : Obligations.ResetState :=
  ⟨rfl, rfl, rfl, rfl, rfl, rfl, rfl, rfl, rfl, rfl, rfl, rfl⟩

/-- After reset an instance has the invariant whenever its parameters agree (R12): it is in LISTEN with every field empty or zero. -/
theorem inv_reset_of_params {par : Params} (hf : par.FormatOk) (hc : par.CounterFits) (hr : par.ResponsesFit) :
    State.Inv { State.reset with par := par } where
  format := hf
  counterFits := hc
  responsesFit := hr
  bufBound := Nat.zero_le _
  counter := rfl
  opWidth := Nat.two_pow_pos _
  lenWidth := Nat.two_pow_pos _
  fault := iff_of_true rfl nofun
  staged := nofun
  stagedBound := Nat.zero_le _
  empty _ := ⟨rfl, rfl, rfl⟩
  drained := nofun
  latched := nofun
  unlatched := nofun
  stopped := nofun
  listening _ := rfl
  immediate _ := nofun

/-- Settles O41: the default parameters agree with each other (R12). -/
theorem invAtReset : Obligations.InvAtReset :=
  inv_reset_of_params (par := {}) (by decide) (by decide) (by decide)

end Sys2Proof.Machine
end
